-- ==== Sys2Proof/Word.lean ====
section
/-! DEFINITION. The word types of the machine: the byte (a register, a memory cell, an operand, the flags) and
the nine-bit program counter. Everything is unsigned (00_scope.md R9); bit 0 is the least significant (R8). -/

namespace Sys2Proof

/-- An 8-bit unsigned value: a register, a memory cell, an operand byte, the flags byte (R7 `XLEN`, R9). -/
abbrev Byte := BitVec 8

/-- The program counter's width (R26, decision D1): values 0 to 257 occur, and it never wraps. -/
abbrev PcWord := BitVec 9

end Sys2Proof
end

