-- ==== Sys2Proof/Config.lean ====
section
/-! DEFINITION. The implementation parameters of 00_scope.md R7. All are fixed numbers; the spec leaves no value free
(40_execution_loop.md R100), so there is no opaque constant here. -/

namespace Sys2Proof.Config

/-- `NREGS`: eight general registers, indices 0 to 7 (R7, R21). -/
abbrev regCount : Nat := 8

/-- `SP_INDEX`: register 7 is the stack pointer (R7, R22). -/
def spIndex : Fin regCount := 7

/-- `SP_RESET` (R7, R22, R40): 0xF4. -/
def spReset : Byte := 0xF4#8

/-- `REG_RESET[0..6]` (R7, R40). DESIGN CHOICE: the spec's decision D5, the source states none; unsafe (log 1). -/
def regReset : Byte := 0x00#8

/-- `PC_RESET` (R7, R26, R40): execution starts at address 0. -/
def pcReset : PcWord := 0#9

/-- `FL_RESET` (R7, R41). DEDUCED by the spec (decision D6): no bit is set before any compare; unsafe (log 2). -/
def flReset : Byte := 0x00#8

/-- `MEMSIZE`: 256 cells, addresses 0 to 255 (R7, R50). -/
def memSize : Nat := 256

/-- What a cell holds that nothing has written: memory is "zero-initialized" (R37, R40). -/
def memReset : Byte := 0x00#8

/-- `LOAD_BASE`: the first program byte goes to address 0 (R7, R182). -/
def loadBase : Nat := 0

/-- The highest address an opcode can be fetched from: all of `pc`, `pc + 1`, `pc + 2` must lie in memory (R92).
DESIGN CHOICE of the spec (decision D2); safe (log 4). -/
def lastFetch : Nat := 253

end Sys2Proof.Config
end

