-- ==== Sys2Proof/Machine/State.lean ====
section
/-! DEFINITION. The machine's state, all of it (10_state.md R20), as plain data; the reasons a step can stop; the state
after reset (R40, R180). -/

namespace Sys2Proof.Machine

/-- `RUN` (R33). -/
inductive RunState where
  /-- RUNNING, the state after reset. -/
  | running
  /-- HALTED, reached by HLT only, left by reset only. -/
  | halted
  deriving DecidableEq, Repr

/-- The three kinds of fatal error the core raises (60_exceptions.md R150). An instruction or a fetch RAISES a kind by
latching it in `State.fault` (a next state, R158); the step of a core whose latch is set then STOPS with that kind
(R90, R150; log 7). Stopping is safe: the spec lets a faulted core do nothing more. -/
inductive Fault where
  /-- Raised by an opcode byte with bit 5 clear that no handler has (R151). Safe. -/
  | unknownOpcode
  /-- Raised by an opcode byte with bit 5 set that the ALU does not know (R114, R152). Safe. -/
  | unsupportedALUOperation
  /-- Raised by a fetch with `pc > 253` (R92) or by an access to a register above 7 (R23, R153). Safe: a lenient or
  masking machine would go on (decisions D2, D3; logs 4 and 5). -/
  | outOfBoundsAccess
  deriving DecidableEq, Repr

/-- What has no meaning in the model. -/
inductive Refusal where
  /-- An instruction without a meaning yet, by its mnemonic: raised by no arm of `exec` now. Safe. -/
  | notModelled (mnemonic : String)
  /-- A program longer than memory, which no run starts from (R154, R183, 93 U10): raised by `resetWith` only, never by a
  step. Safe. -/
  | loaderError
  deriving DecidableEq, Repr

/-- Memory as the cells that differ from what an unlisted address holds (`Config.memReset`), addresses strictly rising and
below 256 (`Memory.wf`); R37, R50. -/
abbrev Memory := List Host.Cell

/-- The complete architectural state, and nothing else (R20, R35, R36, R38). -/
structure State where
  /-- `x[0]` to `x[7]`, R0 to R7, R7 the stack pointer (R21, R22). -/
  regs : Vector Byte 8
  /-- The program counter (R26 to R29). -/
  pc : PcWord
  /-- The flags byte: bit 0 E, bit 1 G, bit 2 L, bits 7:3 always 0 (R30). -/
  fl : Byte
  /-- The run state (R33). -/
  run : RunState
  /-- The fault latch: `none` is the spec's None, `some k` a raised kind (R34). -/
  fault : Option Fault
  /-- The memory (R37). -/
  mem : Memory
  /-- The output log, oldest value first (R39). -/
  out : List Byte
  deriving DecidableEq, Repr

/-- The machine right after reset, with an empty PROGRAM (R40, R180, R183): R0 to R6 by decision D5 (log 1), `FL` by
decision D6 (log 2), `FAULT` and `OUT` by decisions D7 and D10, the rest as stated. -/
def State.reset : State where
  regs := #v[Config.regReset, Config.regReset, Config.regReset, Config.regReset,
    Config.regReset, Config.regReset, Config.regReset, Config.spReset]
  pc := Config.pcReset
  fl := Config.flReset
  run := .running
  fault := none
  mem := []
  out := []

end Sys2Proof.Machine
end

