-- ==== Sys2Proof/Machine/Flags.lean ====
section
/-! DEFINITION. The flags byte (10_state.md R30 to R32) and the one computation that writes it (41_alu.md R113, R116). -/

namespace Sys2Proof.Machine

/-- E, bit 0, value 1 (R30). -/
def flagE : Byte := 0b00000001#8
/-- G, bit 1, value 2 (R30). -/
def flagG : Byte := 0b00000010#8
/-- L, bit 2, value 4 (R30). -/
def flagL : Byte := 0b00000100#8

/-- `FL[0]`, the equal bit, the only one control flow reads (R97). -/
def equalFlag (fl : Byte) : Bool := fl.getLsbD 0

/-- The byte a compare leaves: one-hot, by the unsigned relation (R113, R116; 90_conflicts.md C9, log 12). -/
def compareFlags (u v : Byte) : Byte :=
  if u.toNat = v.toNat then flagE else if u.toNat < v.toNat then flagL else flagG

end Sys2Proof.Machine
end

