-- ==== Sys2Proof/Syntax.lean ====
section
/-! DEFINITION. The instructions: one constructor per row of spec/opcode_table.json (30_encoding.md R75).
Operands are the raw operand bytes as fetched (R73): a register index is a WHOLE byte, 0 to 255, of which only 0 to 7
name a register; a larger one is no decode error (R79). -/

namespace Sys2Proof

/-- The eleven instructions. `a` is the byte after the opcode, `b` the byte after that (00_scope.md R12). -/
inductive Instr where
  /-- HLT, format F0, no operand (R120). -/
  | hlt
  /-- LDI Ra,v, format F2: `a` destination register index, `v` an 8-bit literal (R121). -/
  | ldi (a v : Byte)
  /-- PRN Ra, format F1: `a` source register index (R122). -/
  | prn (a : Byte)
  /-- ADD Ra,Rb, format F2: `a` destination and first source, `b` second source (R111). -/
  | add (a b : Byte)
  /-- MUL Ra,Rb, format F2: `a` destination and first source, `b` second source (R112). -/
  | mul (a b : Byte)
  /-- PUSH Ra, format F1: `a` source register index (R131). -/
  | push (a : Byte)
  /-- POP Ra, format F1: `a` destination register index (R132). -/
  | pop (a : Byte)
  /-- CMP Ra,Rb, format F2: both operands are read only (R113). -/
  | cmp (a b : Byte)
  /-- JEQ Ra, format F1: `a` index of the register holding the target (R142). -/
  | jeq (a : Byte)
  /-- JMP Ra, format F1: `a` index of the register holding the target (R141). -/
  | jmp (a : Byte)
  /-- JNE Ra, format F1: `a` index of the register holding the target (R143). -/
  | jne (a : Byte)
  deriving DecidableEq, Repr

end Sys2Proof
end

