-- ==== Sys2Proof/Decode.lean ====
section
/-! DEFINITION. The encoding (30_encoding.md): the fields of the opcode byte, the opcode map, the decoder (total, rejecting
by name) and the encoder. -/

namespace Sys2Proof

/-- The three bytes phase 1 of a step fetches: `ir` at `pc`, `a` at `pc + 1`, `b` at `pc + 2` (00_scope.md R12). -/
structure Fetched where
  ir : Byte
  a : Byte
  b : Byte
  deriving DecidableEq, Repr

/-- Why a byte is no opcode; both are fatal (R77, 90_conflicts.md C6). -/
inductive DecodeError where
  /-- Bit 5 clear and none of the eight handler opcodes (R76, R151). -/
  | unknownOpcode
  /-- Bit 5 set and none of the three ALU opcodes (R76, R114). -/
  | unsupportedALUOperation
  deriving DecidableEq, Repr

/-! ### Fields of the opcode byte (R71) -/

/-- `N`, bits 7:6: the number of operand bytes, 0 to 3, by the shift, for every byte (R71, R72, R78). -/
def operandCount (ir : Byte) : Nat := (ir >>> 6).toNat

/-- `ALU`, bit 5: marks an ALU operation (R71). -/
def aluBit (ir : Byte) : Bool := ir.getLsbD 5

/-- `PCM`, bit 4: marks a PC-mutating operation; no part of the machine consults it (R71, R146; log 24). -/
def pcmBit (ir : Byte) : Bool := ir.getLsbD 4

/-! ### The opcode map (R75) -/

/-- HLT `00000001`. -/
def opHlt : Byte := 0b00000001#8
/-- LDI `10000010`. -/
def opLdi : Byte := 0b10000010#8
/-- PRN `01000111`. -/
def opPrn : Byte := 0b01000111#8
/-- ADD `10100000`. -/
def opAdd : Byte := 0b10100000#8
/-- MUL `10100010`. -/
def opMul : Byte := 0b10100010#8
/-- PUSH `01000101`. -/
def opPush : Byte := 0b01000101#8
/-- POP `01000110`. -/
def opPop : Byte := 0b01000110#8
/-- CMP `10100111`. -/
def opCmp : Byte := 0b10100111#8
/-- JEQ `01010101`. -/
def opJeq : Byte := 0b01010101#8
/-- JMP `01010100`. -/
def opJmp : Byte := 0b01010100#8
/-- JNE `01010110`. -/
def opJne : Byte := 0b01010110#8

/-- The opcode bytes the ALU recognises (R76, R110). -/
def aluOpcodes : List Byte := [opAdd, opMul, opCmp]

/-- The opcode bytes that have a handler (R76, R95). -/
def handlerOpcodes : List Byte := [opHlt, opLdi, opPrn, opPush, opPop, opJmp, opJeq, opJne]

/-! ### The decoder (R76) -/

/-- The second stage for an ALU-classified byte: the whole byte is matched (R76). -/
def decodeAlu (f : Fetched) : Except DecodeError Instr :=
  if f.ir = opAdd then .ok (.add f.a f.b)
  else if f.ir = opMul then .ok (.mul f.a f.b)
  else if f.ir = opCmp then .ok (.cmp f.a f.b)
  else .error .unsupportedALUOperation

/-- The second stage for a handler-classified byte: the whole byte is matched (R76, R95). -/
def decodeHandler (f : Fetched) : Except DecodeError Instr :=
  if f.ir = opHlt then .ok .hlt
  else if f.ir = opLdi then .ok (.ldi f.a f.b)
  else if f.ir = opPrn then .ok (.prn f.a)
  else if f.ir = opPush then .ok (.push f.a)
  else if f.ir = opPop then .ok (.pop f.a)
  else if f.ir = opJmp then .ok (.jmp f.a)
  else if f.ir = opJeq then .ok (.jeq f.a)
  else if f.ir = opJne then .ok (.jne f.a)
  else .error .unknownOpcode

/-- Decoding in two stages: bit 5 picks the unit, the unit matches the whole byte (R76). Bytes an instruction has no operand
for are ignored (R74). -/
def decode (f : Fetched) : Except DecodeError Instr :=
  if aluBit f.ir then decodeAlu f else decodeHandler f

/-! ### The encoder (R70, R75) -/

/-- The opcode byte of an instruction (R75). -/
def Instr.opcode : Instr → Byte
  | .hlt => opHlt
  | .ldi _ _ => opLdi
  | .prn _ => opPrn
  | .add _ _ => opAdd
  | .mul _ _ => opMul
  | .push _ => opPush
  | .pop _ => opPop
  | .cmp _ _ => opCmp
  | .jeq _ => opJeq
  | .jmp _ => opJmp
  | .jne _ => opJne

/-- The operand bytes, `a` before `b` (R55, R70). -/
def Instr.operands : Instr → List Byte
  | .hlt => []
  | .ldi a v => [a, v]
  | .prn a => [a]
  | .add a b => [a, b]
  | .mul a b => [a, b]
  | .push a => [a]
  | .pop a => [a]
  | .cmp a b => [a, b]
  | .jeq a => [a]
  | .jmp a => [a]
  | .jne a => [a]

/-- The bytes of an instruction, the opcode at the lowest address (R55, R70). -/
def encode (i : Instr) : List Byte := i.opcode :: i.operands

/-! ### Bytes in a row -/

/-- The fetch window over a list of bytes; past the list's end it holds zeros, as empty memory does (R37, R92). -/
def Fetched.ofBytes (bytes : List Byte) : Fetched :=
  { ir := bytes.getD 0 0#8, a := bytes.getD 1 0#8, b := bytes.getD 2 0#8 }

/-- The three bytes of a word numbered as spec/opcode_table.json numbers it: the first byte is bits 7..0, the next
bits 15..8, the next bits 23..16; every bit from `nbits` up is 0. -/
def tableBytes (nbits w : Nat) : List Byte :=
  let low := w % 2 ^ nbits
  [BitVec.ofNat 8 low, BitVec.ofNat 8 (low / 2 ^ 8), BitVec.ofNat 8 (low / 2 ^ 16)]

/-- The instruction the decoder reads from a table word; none where it rejects the opcode. -/
def decodeTableWord (nbits w : Nat) : Option Instr :=
  match decode (Fetched.ofBytes (tableBytes nbits w)) with
  | .ok i => some i
  | .error _ => none

end Sys2Proof
end

