-- ==== Sys2Proof/Machine/Ops.lean ====
section
/-! DEFINITION. The named operations over memory, registers and the status state, raising a fault among them. Every
meaning is written over these and changes the state through nothing else. -/

namespace Sys2Proof.Machine

/-- What a meaning or a step answers. -/
abbrev Result := Host.Outcome State Fault Refusal

/-! ### The memory list -/

/-- The byte at an address: the listed one, else what an unlisted cell holds (R37, R59). -/
def Memory.read : Memory → Nat → Byte
  | [], _ => Config.memReset
  | (k, w) :: rest, addr => if addr = k then w else Memory.read rest addr

/-- The listing of one cell: none when it holds what an unlisted cell holds. -/
def Memory.cell (addr : Nat) (v : Byte) : Memory :=
  if v = Config.memReset then [] else [(addr, v)]

/-- The whole cell at an address replaced (R52, R54), the canonical form kept. -/
def Memory.write : Memory → Nat → Byte → Memory
  | [], addr, v => Memory.cell addr v
  | (k, w) :: rest, addr, v =>
    if addr < k then Memory.cell addr v ++ (k, w) :: rest
    else if addr = k then Memory.cell addr v ++ rest
    else (k, w) :: Memory.write rest addr v

/-- The canonical form from an address on: strictly rising, inside memory, no cell listed that holds the unlisted value. -/
def Memory.wfFrom : Nat → Memory → Bool
  | _, [] => true
  | lo, (k, w) :: rest =>
    decide (lo ≤ k) && decide (k < Config.memSize) && decide (w ≠ Config.memReset) && Memory.wfFrom (k + 1) rest

/-- The canonical form of the memory list. -/
def Memory.wf (m : Memory) : Bool := Memory.wfFrom 0 m

/-! ### Registers (R21, R25) -/

/-- `x[i]`, for an index that has passed the check (R10, R23). -/
def State.reg (s : State) (i : Fin 8) : Byte := s.regs[i]

/-- `x[i] <- v`, for an index that has passed the check (R10, R23, R25). No register is hardwired (R21). -/
def State.setReg (s : State) (i : Fin 8) (v : Byte) : State := { s with regs := s.regs.set i v }

/-! ### Raising a fault (R158) -/

/-- `FAULT <- K` (R34, R158). -/
def State.latch (s : State) (k : Fault) : State := { s with fault := some k }

/-- `raise K`: the latch is set, the step ends, every effect already made stays, nothing is saved, control goes nowhere, `RUN`
is not changed (R158). There is no return from a fault and no handler: only reset clears the latch (R160). -/
def raise (k : Fault) (s : State) : Result := .next (s.latch k)

/-! ### Checked memory accesses (R52) -/

/-- The store of one byte at an address inside memory; outside it nothing is stored. -/
def State.poke (s : State) (addr : Nat) (v : Byte) : State :=
  { s with mem := if addr < Config.memSize then s.mem.write addr v else s.mem }

/-- `MemRead(addr, 1)`, its value handed on; above 255 it raises OutOfBoundsAccess (R10, R52). -/
def memRead (addr : Nat) (s : State) (use : Byte → Result) : Result :=
  if addr < Config.memSize then use (s.mem.read addr) else raise .outOfBoundsAccess s

/-- `MemWrite(addr, 1, v)`; above 255 it raises OutOfBoundsAccess and memory is unchanged (R10, R52). -/
def memWrite (addr : Nat) (v : Byte) (s : State) : Result :=
  if addr < Config.memSize then .next (s.poke addr v) else raise .outOfBoundsAccess s

/-! ### Output, halting, the program counter -/

/-- `Output(v)`: the value goes to the end of the output log (R10, R39, R122). -/
def State.output (s : State) (v : Byte) : State := { s with out := s.out ++ [v] }

/-- `RUN <- HALTED` (R10, R120). -/
def State.halt (s : State) : State := { s with run := .halted }

/-- `FL <- v`, the whole byte (R10, R113). -/
def State.setFlags (s : State) (v : Byte) : State := { s with fl := v }

/-- `pc <- x[i]`, the 8-bit value zero-extended, an absolute address (R96, R140). -/
def State.jumpTo (s : State) (target : Byte) : State := { s with pc := target.setWidth 9 }

/-- Phase 3: `pc <- pc + 1 + N`, for every opcode byte (R94). From a legal fetch address the sum is at most 257, so it fits. -/
def State.advance (s : State) (ir : Byte) : State :=
  { s with pc := BitVec.ofNat 9 (s.pc.toNat + 1 + operandCount ir) }

end Sys2Proof.Machine
end

