-- ==== Sys2Proof/WellFormed.lean ====
section
/-! DEFINITION. Which instructions have legal operand values (30_encoding.md R79, 70_reset_and_hazards.md R186 item 5):
every register-index operand names a register. This is software's duty and NO decode condition: the encoder and the
decoder take every operand byte, and the machine runs an instruction with an illegal index as far as R23 says (it raises
OutOfBoundsAccess when it accesses the register). -/

namespace Sys2Proof

/-- A register-index byte that names a register: 0 to 7, the whole byte, nothing masked (10_state.md R23). -/
def namesRegister (a : Byte) : Bool := decide (a.toNat < Config.regCount)

/-- Every register-index operand names a register (R79); a literal may be any byte (R121). -/
def Instr.wellFormed : Instr → Bool
  | .hlt => true
  | .ldi a _ => namesRegister a
  | .prn a => namesRegister a
  | .add a b => namesRegister a && namesRegister b
  | .mul a b => namesRegister a && namesRegister b
  | .push a => namesRegister a
  | .pop a => namesRegister a
  | .cmp a b => namesRegister a && namesRegister b
  | .jeq a => namesRegister a
  | .jmp a => namesRegister a
  | .jne a => namesRegister a

end Sys2Proof
end

