-- ==== Sys2Proof/Machine/Operands.lean ====
section
/-! DEFINITION. The operand forms (30_encoding.md R73): a register operand with its index check (10_state.md R23), and the two
stack addressing modes (43_stack.md R130). An LDI literal is the byte itself; it needs no operation. -/

namespace Sys2Proof.Machine

/-- The register an operand byte names: the whole byte is the index, only 0 to 7 are valid, nothing is masked (R23, R73). -/
def regIndex (a : Byte) : Option (Fin 8) :=
  if h : a.toNat < 8 then some ⟨a.toNat, h⟩ else none

/-- The byte that names a register: `Rn` is encoded as the byte n (R81). -/
def regByte (i : Fin 8) : Byte := BitVec.ofNat 8 i.val

/-- A register operand: the index check made before anything is written (R23, R153; decisions D3, D8), the register handed on. -/
def withRegister (a : Byte) (s : State) (use : Fin 8 → Result) : Result :=
  match regIndex a with
  | some i => use i
  | none => raise .outOfBoundsAccess s

/-- The two register operands of an ALU instruction, both checked before either is read (R110). -/
def withRegisters (a b : Byte) (s : State) (use : Fin 8 → Fin 8 → Result) : Result :=
  withRegister a s fun i => withRegister b s fun j => use i j

/-- The address the stack pointer designates: the 8-bit register value itself, nothing added (R130). -/
def stackAddress (s : State) : Nat := (s.reg Config.spIndex).toNat

/-- PUSH's pre-decrement, modulo 256: 0 becomes 255 (R131). -/
def preDecrement (s : State) : State := s.setReg Config.spIndex (s.reg Config.spIndex - 1#8)

/-- POP's post-increment, modulo 256: 255 becomes 0; it applies to the stack pointer as it now is (R132). -/
def postIncrement (s : State) : State := s.setReg Config.spIndex (s.reg Config.spIndex + 1#8)

end Sys2Proof.Machine
end

