-- ==== Sys2Proof/Machine/Alu.lean ====
section
/-! DEFINITION. ADD, MUL and CMP (41_alu.md, alu_add_sub_cmp). When a meaning runs, `pc` has already been advanced (R91). -/

namespace Sys2Proof.Machine

/-- The exact sum reduced modulo 256 (R111, R115). -/
def aluAdd (u v : Byte) : Byte := BitVec.ofNat 8 (u.toNat + v.toNat)

/-- The exact product reduced modulo 256 (R112, R115). -/
def aluMul (u v : Byte) : Byte := BitVec.ofNat 8 (u.toNat * v.toNat)

/-- ADD: `x[a] <- (x[a] + x[b]) mod 256` (R111). -/
def execAdd (a b : Byte) (s : State) : Result :=
  withRegisters a b s fun i j => .next (s.setReg i (aluAdd (s.reg i) (s.reg j)))

/-- MUL: `x[a] <- (x[a] * x[b]) mod 256` (R112). -/
def execMul (a b : Byte) (s : State) : Result :=
  withRegisters a b s fun i j => .next (s.setReg i (aluMul (s.reg i) (s.reg j)))

/-- CMP: the whole of `FL` becomes one of E, L, G (R113). -/
def execCmp (a b : Byte) (s : State) : Result :=
  withRegisters a b s fun i j => .next (s.setFlags (compareFlags (s.reg i) (s.reg j)))

end Sys2Proof.Machine
end

