-- ==== Sys2Proof/Machine/Jumps.lean ====
section
/-! DEFINITION. JMP, JEQ and JNE (44_jumps.md), with the branch_dispatcher (40_execution_loop.md R97). When a meaning runs, `pc`
already holds the following instruction's address; a taken jump overwrites it (R96), one not taken leaves it. -/

namespace Sys2Proof.Machine

/-- branch_dispatcher: whether a jump is taken, from the opcode byte and `FL[0]` only (R97). -/
def branchTaken (ir fl : Byte) : Bool :=
  if ir = opJmp then true
  else if ir = opJeq then equalFlag fl
  else if ir = opJne then !equalFlag fl
  else false

/-- The shared jump: taken, the register is checked and becomes the `pc`; not taken, the register is not accessed and its index
is not examined (R23, R142, R143; decision D4, log 6). -/
def jumpWhen (taken : Bool) (a : Byte) (s : State) : Result :=
  if taken then withRegister a s fun i => .next (s.jumpTo (s.reg i)) else .next s

/-- JMP: `pc <- x[a]` (R141). -/
def execJmp (a : Byte) (s : State) : Result := jumpWhen (branchTaken opJmp s.fl) a s

/-- JEQ: `if FL[0] = 1 then pc <- x[a]` (R142). -/
def execJeq (a : Byte) (s : State) : Result := jumpWhen (branchTaken opJeq s.fl) a s

/-- JNE: `if FL[0] = 0 then pc <- x[a]` (R143). -/
def execJne (a : Byte) (s : State) : Result := jumpWhen (branchTaken opJne s.fl) a s

end Sys2Proof.Machine
end

