-- ==== Sys2Proof/Machine/LoadPrintHalt.lean ====
section
/-! DEFINITION. HLT, LDI and PRN (42_load_print_halt.md). When a meaning runs, `pc` has already been advanced (R91). -/

namespace Sys2Proof.Machine

/-- HLT: `RUN <- HALTED` (R120). -/
def execHlt (s : State) : Result := .next s.halt

/-- LDI: `x[a] <- b`, the literal as it is (R121). -/
def execLdi (a v : Byte) (s : State) : Result :=
  withRegister a s fun i => .next (s.setReg i v)

/-- PRN: `x[a]` is appended to the output log (R122). -/
def execPrn (a : Byte) (s : State) : Result :=
  withRegister a s fun i => .next (s.output (s.reg i))

end Sys2Proof.Machine
end

