-- ==== Sys2Proof/Machine/Stack.lean ====
section
/-! DEFINITION. PUSH and POP (43_stack.md). When a meaning runs, `pc` has already been advanced (R91). -/

namespace Sys2Proof.Machine

/-- PUSH: the index check, the decrement, then the store; `x[7]` and `x[a]` are read AFTER the decrement, so `PUSH R7` stores
the decremented stack pointer (R131; check first: decision D8, log 8; R7: decision D19, log 16). -/
def execPush (a : Byte) (s : State) : Result :=
  withRegister a s fun i =>
    memWrite (stackAddress (preDecrement s)) ((preDecrement s).reg i) (preDecrement s)

/-- POP: the index check, the read, the register write, then the increment of the stack pointer AS IT THEN IS, so `POP R7`
leaves the popped value plus 1 (R132; decisions D8 and D19). -/
def execPop (a : Byte) (s : State) : Result :=
  withRegister a s fun i =>
    memRead (stackAddress s) s fun v => .next (postIncrement (s.setReg i v))

end Sys2Proof.Machine
end

