-- ==== Sys2Proof/Machine/Loader.lean ====
section
/-! DEFINITION. Reset with a program (70_reset_and_hazards.md R180, R182, R183) and what the environment sees of a run's
output (42_load_print_halt.md R122). -/

namespace Sys2Proof.Machine

/-- Bytes stored one after the other from an address on; what would fall outside memory is not stored (R182). -/
def installFrom : Nat → List Byte → State → State
  | _, [], s => s
  | addr, v :: rest, s => installFrom (addr + 1) rest (s.poke addr v)

/-- `Reset(PROGRAM)`: the reset state with PROGRAM from address 0 (R180, R182); a program longer than memory is the loader's
error and has no run (R154, R183; decision D11, log 14). -/
def resetWith (program : List Byte) : Result :=
  if program.length ≤ Config.memSize then .next (installFrom Config.loadBase program State.reset)
  else .refused .loaderError

/-- The characters the sink prints for one value: its decimal digits, then a newline. DESIGN CHOICE: the spec's decision D10;
the sink is outside the core (R5, R122; log 13). -/
def printedLine (v : Byte) : List Char := Nat.toDigits 10 v.toNat ++ ['\n']

/-- All the text a run has printed (R122). -/
def State.printedText (s : State) : List Char := s.out.flatMap printedLine

end Sys2Proof.Machine
end

