-- ==== Sys2Proof/Machine/Loop.lean ====
section
/-! DEFINITION. The parts of one pass of the loop around the instruction (40_execution_loop.md R90 to R94): when a step is
enabled, the fetch, the fault an undefined opcode raises, and what a stopped core answers. -/

namespace Sys2Proof.Machine

/-- A step is enabled if and only if `RUN = RUNNING` and `FAULT = None` (R90). -/
def State.enabled (s : State) : Bool := decide (s.run = .running) && decide (s.fault = none)

/-- What a core with no step enabled answers: a faulted core stops with its kind (R150); a halted one stays as it is, nothing
fetched, nothing changed (R90, R98, R99). DESIGN CHOICE, the two forms of "does nothing more" (logs 7 and 9). -/
def stopped (s : State) : Result :=
  match s.fault with
  | some k => .fault k
  | none => .next s

/-- Phase 1: the opcode byte and the two bytes after it, whatever the operand count; none when `pc > 253` (R92; log 4). -/
def fetch (s : State) : Option Fetched :=
  if s.pc.toNat ≤ Config.lastFetch then
    some { ir := s.mem.read s.pc.toNat, a := s.mem.read (s.pc.toNat + 1), b := s.mem.read (s.pc.toNat + 2) }
  else none

/-- The kind an undefined opcode byte raises (R76, R77). -/
def decodeFault : DecodeError → Fault
  | .unknownOpcode => .unknownOpcode
  | .unsupportedALUOperation => .unsupportedALUOperation

end Sys2Proof.Machine
end

