-- ==== Sys2Proof/Machine/Step.lean ====
section
/-! DEFINITION. One step of the machine: fetch, decode, advance, execute, in this order (40_execution_loop.md R91), and the
placing of a word where the next step fetches it. -/

namespace Sys2Proof.Machine

/-- One step (R91). A fetch out of range raises before the advance (R92); an undefined opcode raises after it (R77, R151, R152);
a core with no step enabled answers as `stopped` says (R90). -/
def step (s : State) : Host.Outcome State Fault Refusal :=
  if s.enabled then
    match fetch s with
    | none => raise .outOfBoundsAccess s
    | some f =>
      match decode f with
      | .ok i => exec i (s.advance f.ir)
      | .error e => raise (decodeFault e) (s.advance f.ir)
  else stopped s

/-- The state with a table word's three bytes stored at `pc`, `pc + 1`, `pc + 2`, nothing else changed (log 14). -/
def State.withFetchWord (s : State) (nbits w : Nat) : State :=
  installFrom s.pc.toNat (tableBytes nbits w) s

end Sys2Proof.Machine
end

