-- ==== Sys2Proof/Safety.lean ====
section
/-! DEFINITION. The terms claims use: how a run ends, the fault's code, the invariant of the machine, and which part of the
state an instruction can see. -/

namespace Sys2Proof.Machine

/-- The two ways a run ends (R99, R165). -/
inductive Ending where
  /-- Normal termination on HLT, success. -/
  | success
  /-- Termination by a fatal error of this kind, failure. -/
  | failure (k : Fault)
  deriving DecidableEq, Repr

/-- How a run has ended in a state, if it has: a latched fault is a failure, HALTED without one a success (R99, R165). -/
def State.ending (s : State) : Option Ending :=
  match s.fault, s.run with
  | some k, _ => some (.failure k)
  | none, .halted => some .success
  | none, .running => none

/-- The two-bit code of the fault latch (R34, R155). DESIGN CHOICE: the spec's decision D7; nothing depends on it (log 23). -/
def faultCode : Option Fault → BitVec 2
  | none => 0#2
  | some .unknownOpcode => 1#2
  | some .unsupportedALUOperation => 2#2
  | some .outOfBoundsAccess => 3#2

/-- The invariant of the machine. The memory list has its canonical form (R37, R66); `pc` is at most 257, and at most 256
without a fault (R26, R28); `FL` is 0 or one-hot among E, G, L (R30, R32); HALTED and a fault exclude each other (R34, R99). -/
abbrev State.Inv (s : State) : Prop :=
  s.mem.wf = true ∧ s.pc.toNat ≤ 257 ∧ (s.fault = none → s.pc.toNat ≤ 256) ∧
    s.fl ∈ [0x00#8, 0x01#8, 0x02#8, 0x04#8] ∧ (s.run = .halted → s.fault = none)

/-- Two states with the same registers, memory and flags: all that any instruction can read (R27, R33, R34, R39). -/
abbrev State.SameReadable (s t : State) : Prop := s.regs = t.regs ∧ s.mem = t.mem ∧ s.fl = t.fl

/-- Everything but the registers, `pc` and memory is the same: flags, run state, fault latch, output. -/
abbrev State.SameStatus (s t : State) : Prop :=
  s.fl = t.fl ∧ s.run = t.run ∧ s.fault = t.fault ∧ s.out = t.out

/-- Every byte of memory reads the same. -/
abbrev State.SameMemory (s t : State) : Prop := ∀ addr : Nat, s.mem.read addr = t.mem.read addr

end Sys2Proof.Machine
end

