-- ==== Sys2Proof/Certificates/Slice0/Obligations.lean ====
section
/-! DEFINITION. The statements for the provers. `exec` runs on a state whose `pc` has already been advanced (40_execution_loop.md
R91). A statement whose docstring names a decision `D<n>` or a log entry rests, there, on a choice and not on a sentence of
the source. -/

open Sys2Proof Sys2Proof.Machine

/-! ### Encoding -/

/-- 30_encoding.md R75: "The defined opcodes are exactly these eleven", every row of its table: the pattern, what the operand
bytes are, and the columns N, ALU and PCM; no other byte decodes. -/
def Obligations.OpcodeMapIsExactlyEleven : Prop :=
  (∀ x y : Byte,
    decode ⟨0b00000001#8, x, y⟩ = .ok .hlt ∧ decode ⟨0b10000010#8, x, y⟩ = .ok (.ldi x y) ∧
    decode ⟨0b01000111#8, x, y⟩ = .ok (.prn x) ∧ decode ⟨0b10100000#8, x, y⟩ = .ok (.add x y) ∧
    decode ⟨0b10100010#8, x, y⟩ = .ok (.mul x y) ∧ decode ⟨0b01000101#8, x, y⟩ = .ok (.push x) ∧
    decode ⟨0b01000110#8, x, y⟩ = .ok (.pop x) ∧ decode ⟨0b10100111#8, x, y⟩ = .ok (.cmp x y) ∧
    decode ⟨0b01010101#8, x, y⟩ = .ok (.jeq x) ∧ decode ⟨0b01010100#8, x, y⟩ = .ok (.jmp x) ∧
    decode ⟨0b01010110#8, x, y⟩ = .ok (.jne x)) ∧
  (∀ row ∈ ([(0x01#8, 0, false, false), (0x82#8, 2, false, false), (0x47#8, 1, false, false), (0xA0#8, 2, true, false),
      (0xA2#8, 2, true, false), (0x45#8, 1, false, false), (0x46#8, 1, false, false), (0xA7#8, 2, true, false),
      (0x55#8, 1, false, true), (0x54#8, 1, false, true), (0x56#8, 1, false, true)] : List (Byte × Nat × Bool × Bool)),
    operandCount row.1 = row.2.1 ∧ aluBit row.1 = row.2.2.1 ∧ pcmBit row.1 = row.2.2.2) ∧
  (∀ (f : Fetched) (i : Instr), decode f = .ok i →
    f.ir ∈ [0x01#8, 0x82#8, 0x47#8, 0xA0#8, 0xA2#8, 0x45#8, 0x46#8, 0xA7#8, 0x55#8, 0x54#8, 0x56#8])

/-- 30_encoding.md R70, R73, R74: every instruction, with every value of every operand byte (above 7 too), is read back from
the bytes it encodes to, whatever bytes follow it in memory. -/
def Obligations.DecodeOfEncodeGivesInstruction : Prop :=
  ∀ (i : Instr) (rest : List Byte), decode (Fetched.ofBytes (encode i ++ rest)) = .ok i

/-- 30_encoding.md R70, R72: the bytes of a decoded instruction are the first 1 + N fetched bytes, N the opcode's top two bits:
decoding drops no bit of the instruction, and no two words stand for one instruction. -/
def Obligations.EncodeOfDecodeGivesFetchedBytes : Prop :=
  ∀ (f : Fetched) (i : Instr), decode f = .ok i → encode i = [f.ir, f.a, f.b].take (1 + f.ir.toNat / 64)

/-- 30_encoding.md R74, 70_reset_and_hazards.md R187: bytes an instruction has no operand for are ignored. -/
def Obligations.OverReadBytesDoNotMatter : Prop :=
  ∀ (f : Fetched) (i : Instr) (x y : Byte), decode f = .ok i →
    (f.ir.toNat / 64 ≤ 1 → decode ⟨f.ir, f.a, y⟩ = .ok i) ∧ (f.ir.toNat / 64 = 0 → decode ⟨f.ir, x, y⟩ = .ok i)

/-! ### The step -/

/-- 40_execution_loop.md R91, R95: when the bytes at `pc` decode to an instruction, an enabled step is that instruction's `exec`
on the state whose `pc` has moved past it by 1 + N. The bound 253 is decision D2 (log 4). -/
def Obligations.StepRunsDecodedInstruction : Prop :=
  ∀ (s : State) (i : Instr), s.run = .running → s.fault = none → s.pc.toNat ≤ 253 →
    decode ⟨s.mem.read s.pc.toNat, s.mem.read (s.pc.toNat + 1), s.mem.read (s.pc.toNat + 2)⟩ = .ok i →
    step s = exec i { s with pc := BitVec.ofNat 9 (s.pc.toNat + 1 + (s.mem.read s.pc.toNat).toNat / 64) }

/-- 40_execution_loop.md R90, R100: an enabled step is always taken, and it answers a next state, whatever bytes `pc` meets. That to
raise a fault is a next state, with the latch set, is decision D7 and the model's form (log 7). -/
def Obligations.EnabledStepAnswersNext : Prop :=
  ∀ s : State, s.run = .running → s.fault = none → ∃ t, step s = .next t

/-- 40_execution_loop.md R90, R98, R99, 60_exceptions.md R160: however long it is run, a halted core stays as it is, and a faulted
one stops at its first step with its kind. The two forms of "does nothing more" are the model's (logs 7 and 9). -/
def Obligations.StoppedCoreStaysStopped : Prop :=
  (∀ (s : State) (n : Nat), s.run = .halted → s.fault = none → core.run n s = .next s) ∧
  (∀ (s : State) (n : Nat) (k : Fault), s.fault = some k → core.run (n + 1) s = .fault k)

/-- 40_execution_loop.md R92: a fetch with `pc` above 253 raises OutOfBoundsAccess before anything else, `pc` keeps its value. The
bound and the residual state are decisions D2 and D8 (logs 4 and 8). -/
def Obligations.FetchAbove253Raises : Prop :=
  ∀ s : State, s.run = .running → s.fault = none → 253 < s.pc.toNat →
    step s = .next { s with fault := some .outOfBoundsAccess }

/-- 60_exceptions.md R151: the 120 bytes with bit 5 clear that no handler has raise UnknownOpcode after the advance, and nothing
else changes. -/
def Obligations.UndefinedHandlerByteRaisesUnknownOpcode : Prop :=
  (∀ s : State, s.run = .running → s.fault = none → s.pc.toNat ≤ 253 →
    (s.mem.read s.pc.toNat).getLsbD 5 = false →
    s.mem.read s.pc.toNat ∉ [0x01#8, 0x82#8, 0x47#8, 0x45#8, 0x46#8, 0x54#8, 0x55#8, 0x56#8] →
    step s = .next { s with pc := BitVec.ofNat 9 (s.pc.toNat + 1 + (s.mem.read s.pc.toNat).toNat / 64)
                            fault := some .unknownOpcode }) ∧
  (List.range 256).countP (fun n => !(BitVec.ofNat 8 n).getLsbD 5 &&
    decide (BitVec.ofNat 8 n ∉ [0x01#8, 0x82#8, 0x47#8, 0x45#8, 0x46#8, 0x54#8, 0x55#8, 0x56#8])) = 120

/-- 60_exceptions.md R152, 41_alu.md R114: the 125 bytes with bit 5 set that are not ADD, MUL or CMP raise
UnsupportedALUOperation after the advance; the operand bytes are not examined and nothing else changes. -/
def Obligations.UndefinedAluByteRaisesUnsupported : Prop :=
  (∀ s : State, s.run = .running → s.fault = none → s.pc.toNat ≤ 253 →
    (s.mem.read s.pc.toNat).getLsbD 5 = true → s.mem.read s.pc.toNat ∉ [0xA0#8, 0xA2#8, 0xA7#8] →
    step s = .next { s with pc := BitVec.ofNat 9 (s.pc.toNat + 1 + (s.mem.read s.pc.toNat).toNat / 64)
                            fault := some .unsupportedALUOperation }) ∧
  (List.range 256).countP (fun n => (BitVec.ofNat 8 n).getLsbD 5 &&
    decide (BitVec.ofNat 8 n ∉ [0xA0#8, 0xA2#8, 0xA7#8])) = 125

/-! ### What each instruction answers -/

/-- 41_alu.md R111: ADD, its encoding, its result and nothing else (no flag), the same register twice included, and the fault
of an index above 7, raised before any write. -/
def Obligations.AddResult : Prop :=
  ∀ (a b : Byte) (s : State),
    decode ⟨0b10100000#8, a, b⟩ = .ok (.add a b) ∧
    (∀ i j : Fin 8, a.toNat = i.val → b.toNat = j.val → exec (.add a b) s =
      .next { s with regs := s.regs.set i (BitVec.ofNat 8 (((s.reg i).toNat + (s.reg j).toNat) % 256)) }) ∧
    (7 < a.toNat ∨ 7 < b.toNat → exec (.add a b) s = .next { s with fault := some .outOfBoundsAccess })

/-- 41_alu.md R112: MUL, its encoding, the low 8 bits of the product and nothing else, and the fault of an index above 7. -/
def Obligations.MulResult : Prop :=
  ∀ (a b : Byte) (s : State),
    decode ⟨0b10100010#8, a, b⟩ = .ok (.mul a b) ∧
    (∀ i j : Fin 8, a.toNat = i.val → b.toNat = j.val → exec (.mul a b) s =
      .next { s with regs := s.regs.set i (BitVec.ofNat 8 (((s.reg i).toNat * (s.reg j).toNat) % 256)) }) ∧
    (7 < a.toNat ∨ 7 < b.toNat → exec (.mul a b) s = .next { s with fault := some .outOfBoundsAccess })

/-- 41_alu.md R113: CMP, its encoding, the whole flags byte by the unsigned relation and nothing else, and the fault of an
index above 7, raised before FL is written. -/
def Obligations.CmpResult : Prop :=
  ∀ (a b : Byte) (s : State),
    decode ⟨0b10100111#8, a, b⟩ = .ok (.cmp a b) ∧
    (∀ i j : Fin 8, a.toNat = i.val → b.toNat = j.val →
      ((s.reg i).toNat = (s.reg j).toNat → exec (.cmp a b) s = .next { s with fl := 0b00000001#8 }) ∧
      ((s.reg i).toNat < (s.reg j).toNat → exec (.cmp a b) s = .next { s with fl := 0b00000100#8 }) ∧
      ((s.reg i).toNat > (s.reg j).toNat → exec (.cmp a b) s = .next { s with fl := 0b00000010#8 })) ∧
    (7 < a.toNat ∨ 7 < b.toNat → exec (.cmp a b) s = .next { s with fault := some .outOfBoundsAccess })

/-- 42_load_print_halt.md R120: HLT sets HALTED and changes nothing else; as a step it leaves `pc` one past its own address, and
no step is enabled after it. -/
def Obligations.HltResult : Prop :=
  (∀ s : State, exec .hlt s = .next { s with run := .halted }) ∧
  (∀ s : State, s.run = .running → s.fault = none → s.pc.toNat ≤ 253 → s.mem.read s.pc.toNat = 0b00000001#8 →
    ∃ t, step s = .next t ∧ t = { s with pc := BitVec.ofNat 9 (s.pc.toNat + 1), run := .halted } ∧ t.enabled = false)

/-- 42_load_print_halt.md R121: LDI, its encoding, the literal as it is (any byte) and nothing else, and the fault of an index
above 7. -/
def Obligations.LdiResult : Prop :=
  ∀ (a v : Byte) (s : State),
    decode ⟨0b10000010#8, a, v⟩ = .ok (.ldi a v) ∧
    (∀ i : Fin 8, a.toNat = i.val → exec (.ldi a v) s = .next { s with regs := s.regs.set i v }) ∧
    (7 < a.toNat → exec (.ldi a v) s = .next { s with fault := some .outOfBoundsAccess })

/-- 42_load_print_halt.md R122: PRN hands `x[a]` to the end of the output log and changes nothing else; with an index above 7
nothing is output. The log OUT is decision D10 (log 13). -/
def Obligations.PrnResult : Prop :=
  ∀ (a : Byte) (s : State),
    (∀ i : Fin 8, a.toNat = i.val → exec (.prn a) s = .next { s with out := s.out ++ [s.reg i] }) ∧
    (7 < a.toNat → exec (.prn a) s = .next { s with fault := some .outOfBoundsAccess })

/-- 43_stack.md R131: PUSH decrements the stack pointer modulo 256, then stores `x[a]` as it then is at that address; an index
above 7 faults with nothing changed. The check before the decrement is decision D8 (log 8), PUSH R7 decision D19 (log 16). -/
def Obligations.PushResult : Prop :=
  ∀ (a : Byte) (s : State),
    (∀ i : Fin 8, a.toNat = i.val → exec (.push a) s =
      .next { s with regs := s.regs.set 7 (s.reg 7 - 1#8)
                     mem := s.mem.write (s.reg 7 - 1#8).toNat (if i = 7 then s.reg 7 - 1#8 else s.reg i) }) ∧
    (7 < a.toNat → exec (.push a) s = .next { s with fault := some .outOfBoundsAccess })

/-- 43_stack.md R132: POP reads the byte at the stack pointer into `x[a]`, then increments the stack pointer modulo 256; POP R7
leaves the popped value plus 1. The check first is decision D8 (log 8), POP R7 decision D19 (log 16), the wrap of the increment
deduced (D17, log 21). -/
def Obligations.PopResult : Prop :=
  ∀ (a : Byte) (s : State),
    (∀ i : Fin 8, a.toNat = i.val → i ≠ 7 → exec (.pop a) s =
      .next { s with regs := (s.regs.set i (s.mem.read (s.reg 7).toNat)).set 7 (s.reg 7 + 1#8) }) ∧
    (a.toNat = 7 → exec (.pop a) s = .next { s with regs := s.regs.set 7 (s.mem.read (s.reg 7).toNat + 1#8) }) ∧
    (7 < a.toNat → exec (.pop a) s = .next { s with fault := some .outOfBoundsAccess })

/-- 44_jumps.md R141: JMP, its encoding, `pc` becomes `x[a]`, nothing else changes; with an index above 7 it faults and `pc` keeps
the advanced value. -/
def Obligations.JmpResult : Prop :=
  ∀ (a b : Byte) (s : State),
    decode ⟨0b01010100#8, a, b⟩ = .ok (.jmp a) ∧
    (∀ i : Fin 8, a.toNat = i.val → exec (.jmp a) s = .next { s with pc := BitVec.ofNat 9 (s.reg i).toNat }) ∧
    (7 < a.toNat → exec (.jmp a) s = .next { s with fault := some .outOfBoundsAccess })

/-- 44_jumps.md R142: JEQ jumps when E is set; when E is clear it changes nothing, whatever its operand byte. That an index is
checked only when the jump is taken is decision D4 (log 6). -/
def Obligations.JeqResult : Prop :=
  ∀ (a : Byte) (s : State),
    (∀ i : Fin 8, s.fl.getLsbD 0 = true → a.toNat = i.val →
      exec (.jeq a) s = .next { s with pc := BitVec.ofNat 9 (s.reg i).toNat }) ∧
    (s.fl.getLsbD 0 = true → 7 < a.toNat → exec (.jeq a) s = .next { s with fault := some .outOfBoundsAccess }) ∧
    (s.fl.getLsbD 0 = false → exec (.jeq a) s = .next s)

/-- 44_jumps.md R143: JNE jumps when E is clear; when E is set it changes nothing, whatever its operand byte. That an index is
checked only when the jump is taken is decision D4 (log 6). -/
def Obligations.JneResult : Prop :=
  ∀ (a : Byte) (s : State),
    (∀ i : Fin 8, s.fl.getLsbD 0 = false → a.toNat = i.val →
      exec (.jne a) s = .next { s with pc := BitVec.ofNat 9 (s.reg i).toNat }) ∧
    (s.fl.getLsbD 0 = false → 7 < a.toNat → exec (.jne a) s = .next { s with fault := some .outOfBoundsAccess }) ∧
    (s.fl.getLsbD 0 = true → exec (.jne a) s = .next s)

/-! ### Frames -/

/-- 10_state.md R24, 41_alu.md R111, R112, 42_load_print_halt.md R121: ADD, MUL and LDI leave everything but `x[a]` unchanged; the
fault latch too, unless an operand index is above 7. -/
def Obligations.FrameOfAddMulLdi : Prop :=
  ∀ (a b : Byte) (s t : State), ∀ i ∈ [Instr.add a b, Instr.mul a b, Instr.ldi a b], exec i s = .next t →
    (∀ r : Fin 8, r.val ≠ a.toNat → t.reg r = s.reg r) ∧ t.pc = s.pc ∧ t.fl = s.fl ∧ t.run = s.run ∧ t.out = s.out ∧
    (i.wellFormed = true → t.fault = s.fault) ∧ (∀ addr : Nat, t.mem.read addr = s.mem.read addr)

/-- 10_state.md R24, 41_alu.md R113: CMP leaves everything but FL unchanged; the fault latch too, unless an operand index is
above 7, and then FL is unchanged. -/
def Obligations.FrameOfCmp : Prop :=
  ∀ (a b : Byte) (s t : State), exec (.cmp a b) s = .next t →
    (∀ r : Fin 8, t.reg r = s.reg r) ∧ t.pc = s.pc ∧ t.run = s.run ∧ t.out = s.out ∧
    (Instr.wellFormed (.cmp a b) = true → t.fault = s.fault) ∧
    (Instr.wellFormed (.cmp a b) = false → t.fl = s.fl) ∧
    (∀ addr : Nat, t.mem.read addr = s.mem.read addr)

/-- 42_load_print_halt.md R120, R122, R123: PRN changes only the output log, HLT only the run state; the fault latch too only for
PRN with an index above 7. -/
def Obligations.FrameOfPrnHlt : Prop :=
  ∀ (a : Byte) (s t : State), ∀ i ∈ [Instr.prn a, Instr.hlt], exec i s = .next t →
    (∀ r : Fin 8, t.reg r = s.reg r) ∧ t.pc = s.pc ∧ t.fl = s.fl ∧
    (i = .prn a → t.run = s.run) ∧ (i = .hlt → t.out = s.out) ∧
    (i.wellFormed = true → t.fault = s.fault) ∧ (∀ addr : Nat, t.mem.read addr = s.mem.read addr)

/-- 44_jumps.md R145: a jump, taken or not, changes nothing but `pc`; the fault latch too only when a register index is above 7. -/
def Obligations.FrameOfJumps : Prop :=
  ∀ (a : Byte) (s t : State), ∀ i ∈ [Instr.jmp a, Instr.jeq a, Instr.jne a], exec i s = .next t →
    (∀ r : Fin 8, t.reg r = s.reg r) ∧ t.fl = s.fl ∧ t.run = s.run ∧ t.out = s.out ∧
    (i.wellFormed = true → t.fault = s.fault) ∧ (∀ addr : Nat, t.mem.read addr = s.mem.read addr)

/-- 43_stack.md R131, R135: PUSH changes only the stack pointer and the one byte at the decremented stack pointer, which then
holds what `x[a]` holds; with an index above 7 it changes no register and no byte. That such an index leaves the stack pointer and
memory as they were, the check before the decrement, is decision D8 (log 8; R159), and which byte PUSH R7 stores is decision D19
(log 16). The address is the one `execPush` stores to. The stored
byte is read back in memories of canonical form (`Memory.wf`, kept by every step: StepKeepsInvariant). -/
def Obligations.FrameOfPush : Prop :=
  ∀ (a : Byte) (s t : State), exec (.push a) s = .next t →
    (∀ r : Fin 8, r ≠ 7 → t.reg r = s.reg r) ∧ t.pc = s.pc ∧ t.fl = s.fl ∧ t.run = s.run ∧ t.out = s.out ∧
    (a.toNat ≤ 7 → t.fault = s.fault) ∧
    (∀ addr : Nat, addr ≠ stackAddress (preDecrement s) → t.mem.read addr = s.mem.read addr) ∧
    (∀ i : Fin 8, a.toNat = i.val → s.mem.wf = true → t.mem.read (stackAddress (preDecrement s)) = t.reg i) ∧
    (7 < a.toNat → t.reg 7 = s.reg 7 ∧ ∀ addr : Nat, t.mem.read addr = s.mem.read addr)

/-- 43_stack.md R132, R135: POP changes only `x[a]` and the stack pointer; no byte of memory changes, the popped cell too. That an
index above 7 leaves the stack pointer as it was, the check first, is decision D8 (log 8). -/
def Obligations.FrameOfPop : Prop :=
  ∀ (a : Byte) (s t : State), exec (.pop a) s = .next t →
    (∀ r : Fin 8, r ≠ 7 → r.val ≠ a.toNat → t.reg r = s.reg r) ∧
    t.pc = s.pc ∧ t.fl = s.fl ∧ t.run = s.run ∧ t.out = s.out ∧
    (a.toNat ≤ 7 → t.fault = s.fault) ∧ (7 < a.toNat → t.reg 7 = s.reg 7) ∧
    (∀ addr : Nat, t.mem.read addr = s.mem.read addr)

/-! ### Rules of the whole machine -/

/-- 10_state.md R31: "Flags are unchanged by any instruction other than compare": only a step at a CMP opcode changes FL; a CMP
leaves exactly one of the three bits; what FL holds never reaches a register, memory or the output within an instruction. -/
def Obligations.FlagsWrittenOnlyByCompare : Prop :=
  (∀ s t : State, step s = .next t → t.fl ≠ s.fl → s.mem.read s.pc.toNat = 0xA7#8) ∧
  (∀ (i : Instr) (s t : State), exec i s = .next t → (∀ a b, i ≠ .cmp a b) → t.fl = s.fl) ∧
  (∀ (a b : Byte) (s : State), a.toNat ≤ 7 → b.toNat ≤ 7 →
    ∃ t, exec (.cmp a b) s = .next t ∧ t.fl ∈ [0b001#8, 0b010#8, 0b100#8]) ∧
  (∀ (i : Instr) (s t u : State) (v : Byte), exec i s = .next t → exec i { s with fl := v } = .next u →
    u.regs = t.regs ∧ u.mem = t.mem ∧ u.out = t.out)

/-- 10_state.md R37, 20_memory.md R51: during a run the only writer of memory is PUSH, and it writes one cell: a step that changes
memory is at a PUSH opcode and leaves every cell but the one below the stack pointer as it was. -/
def Obligations.OnlyPushWritesMemory : Prop :=
  ∀ s t : State, step s = .next t → t.mem ≠ s.mem →
    s.mem.read s.pc.toNat = 0x45#8 ∧
    ∀ addr : Nat, addr ≠ (s.reg 7 - 1#8).toNat → t.mem.read addr = s.mem.read addr

/-- 42_load_print_halt.md R123, 10_state.md R39: a step leaves the output log as it is, or it is at a PRN opcode and appends the
one value of the register its operand byte names. The log OUT is decision D10 (log 13). -/
def Obligations.OnlyPrnWritesOutput : Prop :=
  ∀ s t : State, step s = .next t →
    t.out = s.out ∨
    (s.mem.read s.pc.toNat = 0x47#8 ∧
      ∃ i : Fin 8, (s.mem.read (s.pc.toNat + 1)).toNat = i.val ∧ t.out = s.out ++ [s.reg i])

/-- 10_state.md R33, 40_execution_loop.md R92, R98: RUN is RUNNING after reset, becomes HALTED only by HLT, HALTED is terminal (no
step leaves it), and no instruction reads RUN. That the halting step's `pc` is at most 253 is the fetch bound of decision D2 (log 4),
and that the step of a halted core answers the same state is the model's form (log 9). -/
def Obligations.OnlyHltReachesHaltedForGood : Prop :=
  State.reset.run = .running ∧
  (∀ s t : State, step s = .next t → s.run = .running → t.run = .halted →
    s.pc.toNat ≤ 253 ∧ s.mem.read s.pc.toNat = 0x01#8) ∧
  (∀ s t : State, step s = .next t → s.run = .halted → t = s) ∧
  (∀ (i : Instr) (s t : State) (r : RunState), exec i s = .next t →
    ∃ u, exec i { s with run := r } = .next u ∧ { u with run := t.run } = t)

/-- 60_exceptions.md R153, R158, 40_execution_loop.md R92, R94: a step that raises a fault leaves everything but the latch and `pc`
as it was; `pc` is the old one for a fetch fault and the advanced one otherwise. The residual state is decisions D7 and D8 (logs 7
and 8), the bound 253 between the two cases D2 (log 4), and the advance by 4 of a byte with N = 3 D16 (log 11). -/
def Obligations.FaultChangesOnlyPcAndLatch : Prop :=
  ∀ (s t : State) (k : Fault), s.run = .running → s.fault = none → step s = .next t → t.fault = some k →
    t = { s with pc := t.pc, fault := some k } ∧
    (253 < s.pc.toNat → t.pc = s.pc) ∧
    (s.pc.toNat ≤ 253 → t.pc.toNat = s.pc.toNat + 1 + (s.mem.read s.pc.toNat).toNat / 64)

/-- 60_exceptions.md R150, R153, R157: exactly when a step raises each kind. The fetch bound comes first, then the opcode, then
the register indices the instruction accesses (those of a jump only when it is taken). The bound is decision D2, the index policy D3
and D4, the order D8, the kind of an undefined byte D9 (logs 4, 5, 6, 8 and 10). -/
def Obligations.EachFaultKindExactlyWhen : Prop :=
  ∀ s t : State, s.run = .running → s.fault = none → step s = .next t →
    (t.fault = some .unknownOpcode ↔ s.pc.toNat ≤ 253 ∧ (s.mem.read s.pc.toNat).getLsbD 5 = false ∧
      s.mem.read s.pc.toNat ∉ [0x01#8, 0x82#8, 0x47#8, 0x45#8, 0x46#8, 0x54#8, 0x55#8, 0x56#8]) ∧
    (t.fault = some .unsupportedALUOperation ↔ s.pc.toNat ≤ 253 ∧ (s.mem.read s.pc.toNat).getLsbD 5 = true ∧
      s.mem.read s.pc.toNat ∉ [0xA0#8, 0xA2#8, 0xA7#8]) ∧
    (t.fault = some .outOfBoundsAccess ↔ 253 < s.pc.toNat ∨
      (s.mem.read s.pc.toNat ∈ [0xA0#8, 0xA2#8, 0xA7#8] ∧
        (7 < (s.mem.read (s.pc.toNat + 1)).toNat ∨ 7 < (s.mem.read (s.pc.toNat + 2)).toNat)) ∨
      (7 < (s.mem.read (s.pc.toNat + 1)).toNat ∧
        (s.mem.read s.pc.toNat ∈ [0x82#8, 0x47#8, 0x45#8, 0x46#8, 0x54#8] ∨
          (s.mem.read s.pc.toNat = 0x55#8 ∧ s.fl.getLsbD 0 = true) ∨
          (s.mem.read s.pc.toNat = 0x56#8 ∧ s.fl.getLsbD 0 = false))))

/-- 60_exceptions.md R153, 70_reset_and_hazards.md R186 item 5: an instruction whose register operands all name registers always
completes, and leaves the fault latch alone. -/
def Obligations.LegalOperandsNeverFault : Prop :=
  ∀ (i : Instr) (s : State), i.wellFormed = true → ∃ t, exec i s = .next t ∧ t.fault = s.fault

/-- 40_execution_loop.md R96: at the end of a step that does not fault, `pc` is the zero-extended `x[a]` when a jump is taken
(JMP always, JEQ when E is set, JNE when E is clear), else the old `pc` plus 1 + N. -/
def Obligations.PcMuxSelectsNextPc : Prop :=
  ∀ s t : State, s.run = .running → s.fault = none → step s = .next t → t.fault = none →
    ((s.mem.read s.pc.toNat = 0x54#8 ∨ (s.mem.read s.pc.toNat = 0x55#8 ∧ s.fl.getLsbD 0 = true) ∨
        (s.mem.read s.pc.toNat = 0x56#8 ∧ s.fl.getLsbD 0 = false)) →
      ∃ i : Fin 8, (s.mem.read (s.pc.toNat + 1)).toNat = i.val ∧ t.pc.toNat = (s.reg i).toNat) ∧
    (¬(s.mem.read s.pc.toNat = 0x54#8 ∨ (s.mem.read s.pc.toNat = 0x55#8 ∧ s.fl.getLsbD 0 = true) ∨
        (s.mem.read s.pc.toNat = 0x56#8 ∧ s.fl.getLsbD 0 = false)) →
      t.pc.toNat = s.pc.toNat + 1 + (s.mem.read s.pc.toNat).toNat / 64)

/-- 40_execution_loop.md R94: the advance adds 1 + N without wrap-around for every opcode byte, undefined ones included, so a step
that is not at a jump opcode leaves exactly that `pc` (3 more for operand count 2); the sum is at most 256 for N up to 2 and 257 for
N = 3; one above 253 makes the next step's fetch fault. -/
def Obligations.AdvanceAddsLengthToPc : Prop :=
  ∀ s : State, s.pc.toNat ≤ 253 →
    (∀ ir : Byte, (s.advance ir).pc.toNat = s.pc.toNat + 1 + ir.toNat / 64 ∧ (s.advance ir).pc.toNat ≤ 257 ∧
      (ir.toNat / 64 ≤ 2 → (s.advance ir).pc.toNat ≤ 256)) ∧
    (∀ t : State, s.run = .running → s.fault = none → step s = .next t →
      (s.mem.read s.pc.toNat ∉ [0x54#8, 0x55#8, 0x56#8] →
        t.pc.toNat = s.pc.toNat + 1 + (s.mem.read s.pc.toNat).toNat / 64) ∧
      ((s.mem.read s.pc.toNat).toNat / 64 = 2 → t.pc.toNat = s.pc.toNat + 3) ∧
      (253 < t.pc.toNat → t.run = .running → t.fault = none →
        ∃ u, step t = .next u ∧ u.fault = some .outOfBoundsAccess))

/-- 40_execution_loop.md R97: `taken` is JMP always, JEQ on E, JNE on not E, nothing else; and G and L never influence control
flow: states that differ only in FL, but not in its bit 0, step to the same `pc`. -/
def Obligations.BranchDependsOnEqualBitOnly : Prop :=
  (∀ ir fl : Byte, branchTaken ir fl = true ↔
    ir = 0x54#8 ∨ (ir = 0x55#8 ∧ fl.getLsbD 0 = true) ∨ (ir = 0x56#8 ∧ fl.getLsbD 0 = false)) ∧
  (∀ (s t : State) (v : Byte), v.getLsbD 0 = s.fl.getLsbD 0 → step s = .next t →
    ∃ u, step { s with fl := v } = .next u ∧ u.pc = t.pc ∧ u.fault = t.fault)

/-- 41_alu.md R116, 44_jumps.md R142 to R144: after a CMP, exactly one of JEQ and JNE is taken, JEQ when the two registers were
equal. -/
def Obligations.CompareThenExactlyOneJumpTaken : Prop :=
  ∀ (i j k : Fin 8) (s : State), ∃ t, exec (.cmp (regByte i) (regByte j)) s = .next t ∧
    (s.reg i = s.reg j →
      exec (.jeq (regByte k)) t = .next { t with pc := BitVec.ofNat 9 (s.reg k).toNat } ∧
      exec (.jne (regByte k)) t = .next t) ∧
    (s.reg i ≠ s.reg j →
      exec (.jeq (regByte k)) t = .next t ∧
      exec (.jne (regByte k)) t = .next { t with pc := BitVec.ofNat 9 (s.reg k).toNat })

/-- 43_stack.md R133: PUSH followed immediately by POP, for indices 0 to 6 and every stack pointer, the wrap at 0 included: the
popped register holds the pushed value (the same register its own), the stack pointer is as before, provided the PUSH did not
overwrite the POP's own bytes. -/
def Obligations.PushThenPopRestores : Prop :=
  ∀ (s : State) (i j : Fin 8), i ≠ 7 → j ≠ 7 → s.run = .running → s.fault = none → s.mem.wf = true → s.pc.toNat ≤ 251 →
    s.mem.read s.pc.toNat = 0x45#8 → s.mem.read (s.pc.toNat + 1) = regByte i →
    s.mem.read (s.pc.toNat + 2) = 0x46#8 → s.mem.read (s.pc.toNat + 3) = regByte j →
    (s.reg 7 - 1#8).toNat ≠ s.pc.toNat + 2 → (s.reg 7 - 1#8).toNat ≠ s.pc.toNat + 3 →
    ∃ t u, step s = .next t ∧ step t = .next u ∧ u.reg j = s.reg i ∧ u.reg 7 = s.reg 7 ∧
      (∀ r : Fin 8, r ≠ j → u.reg r = s.reg r) ∧ u.fault = none ∧ u.pc.toNat = s.pc.toNat + 4

/-- 43_stack.md R134: PUSH R7 then POP R7 restores the stack pointer, PUSH R7 then POP Rb leaves the decremented one in Rb. It rests
on decision D19 (log 16). -/
def Obligations.PushSevenThenPop : Prop :=
  ∀ s : State, s.mem.wf = true → ∃ t, exec (.push (regByte 7)) s = .next t ∧
    (∃ u, exec (.pop (regByte 7)) t = .next u ∧ u.reg 7 = s.reg 7) ∧
    (∀ j : Fin 8, j ≠ 7 → ∃ u, exec (.pop (regByte j)) t = .next u ∧ u.reg j = s.reg 7 - 1#8 ∧ u.reg 7 = s.reg 7)

/-- 20_memory.md R60, R62, 43_stack.md R131: a byte a PUSH stores over the next opcode is the opcode the next step fetches. That it
is seen at once is decision D21 (log 19), and that PUSH R7 stores the decremented stack pointer is decision D19 (log 16). -/
def Obligations.PushedByteIsNextOpcode : Prop :=
  ∀ (s : State) (i : Fin 8), s.run = .running → s.fault = none → s.mem.wf = true → s.pc.toNat ≤ 251 →
    s.mem.read s.pc.toNat = 0x45#8 → s.mem.read (s.pc.toNat + 1) = regByte i →
    (s.reg 7 - 1#8).toNat = s.pc.toNat + 2 →
    ∃ t f, step s = .next t ∧ fetch t = some f ∧ f.ir = (if i = 7 then s.reg 7 - 1#8 else s.reg i)

/-- 44_jumps.md R141, 40_execution_loop.md R101: a JMP whose register holds the JMP's own address loops for ever: however many
steps are run, the state is the same. -/
def Obligations.JumpToItselfLoopsForEver : Prop :=
  ∀ (s : State) (i : Fin 8), s.run = .running → s.fault = none → s.pc.toNat ≤ 253 →
    s.mem.read s.pc.toNat = 0x54#8 → s.mem.read (s.pc.toNat + 1) = regByte i → (s.reg i).toNat = s.pc.toNat →
    ∀ n : Nat, core.run n s = .next s

/-- 10_state.md R27, R31, R33, R34, R39: what an instruction writes depends on registers, memory and flags only: no instruction
reads `pc`, RUN, FAULT or OUT. Run on two states that agree on registers, memory and flags, it leaves both agreeing there, appends
the same values to OUT, and each of `pc`, RUN and FAULT it leaves alone in both or makes the same in both. That FAULT is state is
decision D7 (log 7), OUT decision D10 (log 13). -/
def Obligations.InstructionsReadOnlyRegistersMemoryFlags : Prop :=
  ∀ (i : Instr) (s s' t : State), s.SameReadable s' → exec i s = .next t →
    ∃ t', exec i s' = .next t' ∧ t.SameReadable t' ∧ (∃ vs, t.out = s.out ++ vs ∧ t'.out = s'.out ++ vs) ∧
      (t.pc = s.pc ∧ t'.pc = s'.pc ∨ t.pc = t'.pc) ∧ (t.run = s.run ∧ t'.run = s'.run ∨ t.run = t'.run) ∧
      (t.fault = s.fault ∧ t'.fault = s'.fault ∨ t.fault = t'.fault)

/-! ### Invariants, memory, reset -/

/-- 10_state.md R25, R26, R28, R30, R32 to R34, R37: every step from a state with the invariant leaves a state with it: memory in
canonical form, `pc` at most 257 and at most 256 without a fault, FL 0 or one-hot, HALTED and a fault exclusive. The bounds of `pc` are
decisions D1 and D16 (logs 3 and 11), the latch D7 (log 7), FL's values logs 12 and 20, the list form of memory log 15. -/
def Obligations.StepKeepsInvariant : Prop :=
  ∀ s t : State, s.Inv → step s = .next t → t.Inv

/-- The invariant holds in the reset state (10_state.md R40). -/
def Obligations.ResetHasInvariant : Prop := State.reset.Inv

/-- 20_memory.md R50, R59: memories of canonical form that read the same at all 256 addresses are the same data. The list form is
the model's (log 15). -/
def Obligations.CanonicalMemoriesReadingAlikeAreEqual : Prop :=
  ∀ m n : Memory, m.wf = true → n.wf = true → (∀ addr : Nat, addr < 256 → m.read addr = n.read addr) → m = n

/-- 10_state.md R40: the reset state. R0 to R6 are 0 by decision D5 (log 1) and FL by D6 (log 2); FAULT and OUT are decisions D7 and
D10 (logs 7 and 13); the rest is stated. -/
def Obligations.ResetStateValues : Prop :=
  (∀ r : Fin 8, r ≠ 7 → State.reset.reg r = 0#8) ∧ State.reset.reg 7 = 0xF4#8 ∧ State.reset.pc.toNat = 0 ∧
  State.reset.fl = 0#8 ∧ State.reset.run = .running ∧ State.reset.fault = none ∧ State.reset.out = [] ∧
  (∀ addr : Nat, State.reset.mem.read addr = 0#8)

/-- 70_reset_and_hazards.md R182: the k-th byte of the program goes to address k, every other cell keeps its reset value 0, nothing
else of the reset state changes; the bytes may be any. The limit of 256
bytes is decision D11 (log 14), and that the memory is a list of canonical form is the model's own (log 15). -/
def Obligations.ProgramIsInstalledFromZero : Prop :=
  ∀ program : List Byte, program.length ≤ 256 → ∃ s, resetWith program = .next s ∧
    (∀ (k : Nat) (h : k < program.length), s.mem.read k = program[k]) ∧
    (∀ k : Nat, program.length ≤ k → s.mem.read k = 0#8) ∧
    s = { State.reset with mem := s.mem } ∧ s.mem.wf = true

/-- 70_reset_and_hazards.md R183, 60_exceptions.md R154: a program longer than memory has no run. Decision D11 (log 14). -/
def Obligations.TooLongProgramHasNoRun : Prop :=
  ∀ program : List Byte, 256 < program.length → resetWith program = .refused .loaderError

/-- A word of the opcode table placed where the core fetches is the instruction the next step runs (the model's own placing, log 14,
over 40_execution_loop.md R91 and R92). -/
def Obligations.PlacedWordIsNextInstruction : Prop :=
  ∀ (s : State) (nbits w : Nat) (i : Instr), s.run = .running → s.fault = none → s.mem.wf = true → s.pc.toNat ≤ 253 →
    decodeTableWord nbits w = some i →
    step (s.withFetchWord nbits w) = exec i ((s.withFetchWord nbits w).advance i.opcode) ∧
    s.withFetchWord nbits w = { s with mem := (s.withFetchWord nbits w).mem }
end

