-- ==== Sys2Proof/Laws/Decode.lean ====
section
/-! SUPPORT. The decoder, stated once: what an opcode byte that decodes says of the instruction, and which bytes do not
decode. -/

namespace Sys2Proof

/-- The operand count is the byte's top two bits (R71, R72). -/
theorem operandCount_eq (ir : Byte) : operandCount ir = ir.toNat / 64 := by
  revert ir; decide

/-! The operand count of each opcode byte (R75, column N). -/

@[simp] theorem operandCount_opHlt : operandCount opHlt = 0 := by decide
@[simp] theorem operandCount_opLdi : operandCount opLdi = 2 := by decide
@[simp] theorem operandCount_opPrn : operandCount opPrn = 1 := by decide
@[simp] theorem operandCount_opAdd : operandCount opAdd = 2 := by decide
@[simp] theorem operandCount_opMul : operandCount opMul = 2 := by decide
@[simp] theorem operandCount_opPush : operandCount opPush = 1 := by decide
@[simp] theorem operandCount_opPop : operandCount opPop = 1 := by decide
@[simp] theorem operandCount_opCmp : operandCount opCmp = 2 := by decide
@[simp] theorem operandCount_opJeq : operandCount opJeq = 1 := by decide
@[simp] theorem operandCount_opJmp : operandCount opJmp = 1 := by decide
@[simp] theorem operandCount_opJne : operandCount opJne = 1 := by decide

/-- The operand count of an instruction's opcode is how many operand bytes it has (R72). -/
theorem operandCount_opcode (i : Instr) : operandCount i.opcode = i.operands.length := by
  cases i <;> simp [Instr.opcode, Instr.operands]

/-- A fetched opcode that decodes is the instruction's own, and the instruction's operand bytes are the first N of the two bytes
fetched after it (R73, R76). -/
theorem decode_ok {f : Fetched} {i : Instr} (h : decode f = .ok i) :
    f.ir = i.opcode ∧ i.operands = [f.a, f.b].take (operandCount f.ir) := by
  unfold decode decodeAlu decodeHandler at h
  split at h <;> repeat' (split at h)
  all_goals first
    | (cases h; done)
    | (rename_i e; cases h; simp [e, Instr.opcode, Instr.operands])

/-- An instruction's own opcode byte, with two bytes after it that begin with its operands, decodes to it (R75). -/
theorem decode_of_opcode (i : Instr) (a b : Byte) (h : i.operands = [a, b].take (operandCount i.opcode)) :
    decode ⟨i.opcode, a, b⟩ = .ok i := by
  rw [operandCount_opcode] at h
  cases i <;> simp only [Instr.operands, List.length_cons, List.length_nil, List.take_succ_cons, List.take_zero,
    List.cons.injEq, and_true] at h
  case hlt => simp [decode, decodeHandler, Instr.opcode, aluBit, opHlt]
  case ldi => simp [decode, decodeHandler, Instr.opcode, aluBit, opHlt, opLdi, h]
  case prn => simp [decode, decodeHandler, Instr.opcode, aluBit, opHlt, opLdi, opPrn, h]
  case add => simp [decode, decodeAlu, Instr.opcode, aluBit, opAdd, h]
  case mul => simp [decode, decodeAlu, Instr.opcode, aluBit, opAdd, opMul, h]
  case push => simp [decode, decodeHandler, Instr.opcode, aluBit, opHlt, opLdi, opPrn, opPush, h]
  case pop => simp [decode, decodeHandler, Instr.opcode, aluBit, opHlt, opLdi, opPrn, opPush, opPop, h]
  case cmp => simp [decode, decodeAlu, Instr.opcode, aluBit, opAdd, opMul, opCmp, h]
  case jeq => simp [decode, decodeHandler, Instr.opcode, aluBit, opHlt, opLdi, opPrn, opPush, opPop, opJmp, opJeq, h]
  case jmp => simp [decode, decodeHandler, Instr.opcode, aluBit, opHlt, opLdi, opPrn, opPush, opPop, opJmp, h]
  case jne => simp [decode, decodeHandler, Instr.opcode, aluBit, opHlt, opLdi, opPrn, opPush, opPop, opJmp, opJeq, opJne, h]

/-- A byte that does not decode is none of its unit's opcodes, and bit 5 says which unit rejects it (R76, R77). -/
theorem decode_error {f : Fetched} {e : DecodeError} (h : decode f = .error e) :
    (e = .unsupportedALUOperation ∧ aluBit f.ir = true ∧ f.ir ∉ aluOpcodes) ∨
      (e = .unknownOpcode ∧ aluBit f.ir = false ∧ f.ir ∉ handlerOpcodes) := by
  unfold decode decodeAlu decodeHandler at h
  split at h <;> rename_i unit <;> repeat' (split at h)
  all_goals first
    | (cases h; done)
    | (cases h; simp_all [aluOpcodes, handlerOpcodes])

/-- A byte that is none of its unit's opcodes is rejected by that unit (R76, R77). -/
theorem decode_rejects (f : Fetched) :
    (aluBit f.ir = true → f.ir ∉ aluOpcodes → decode f = .error .unsupportedALUOperation) ∧
      (aluBit f.ir = false → f.ir ∉ handlerOpcodes → decode f = .error .unknownOpcode) := by
  constructor <;> intro h n <;> simp_all [decode, decodeAlu, decodeHandler, aluOpcodes, handlerOpcodes]

end Sys2Proof
end

