-- ==== Sys2Proof/Laws/Memory.lean ====
section
/-! SUPPORT. The memory list: a read after a write, and that every memory operation keeps the canonical form. -/

namespace Sys2Proof.Machine

/-- Below the first possible address nothing is listed. -/
theorem Memory.read_below {m : Memory} {lo addr : Nat} (h : m.wfFrom lo = true) (lt : addr < lo) :
    m.read addr = Config.memReset := by
  induction m generalizing lo with
  | nil => rfl
  | cons c rest ih =>
    obtain ⟨k, w⟩ := c
    simp only [Memory.wfFrom, Bool.and_eq_true, decide_eq_true_eq] at h
    have ne : addr ≠ k := by omega
    simp only [Memory.read, ne, if_false]
    exact ih h.2 (by omega)

/-- A canonical list stays canonical from a lower address. -/
theorem Memory.wfFrom_mono {m : Memory} {lo lo' : Nat} (h : m.wfFrom lo = true) (le : lo' ≤ lo) :
    m.wfFrom lo' = true := by
  cases m with
  | nil => rfl
  | cons c rest =>
    obtain ⟨k, w⟩ := c
    simp only [Memory.wfFrom, Bool.and_eq_true, decide_eq_true_eq] at h ⊢
    exact ⟨⟨⟨by omega, h.1.1.2⟩, h.1.2⟩, h.2⟩

/-- One listed cell before a canonical list. -/
theorem Memory.read_cell_append (m : Memory) (addr : Nat) (v : Byte) (a : Nat) :
    Memory.read (Memory.cell addr v ++ m) a =
      if a = addr ∧ v ≠ Config.memReset then v else m.read a := by
  by_cases hv : v = Config.memReset <;> by_cases ha : a = addr <;> simp [Memory.cell, Memory.read, hv, ha]

/-- A write leaves every other address alone (R52, R54). -/
theorem Memory.read_write_other (m : Memory) {addr a : Nat} (v : Byte) (ne : a ≠ addr) :
    (m.write addr v).read a = m.read a := by
  induction m with
  | nil =>
    have := Memory.read_cell_append [] addr v a
    simpa [Memory.write, ne] using this
  | cons c rest ih =>
    obtain ⟨k, w⟩ := c
    simp only [Memory.write]
    split
    · simp [Memory.read_cell_append, ne]
    · split
      · rename_i h
        subst h
        simp [Memory.read_cell_append, ne, Memory.read]
      · simp [Memory.read, ih]

/-- A read after a write to the same address gives the value written (R59). -/
theorem Memory.read_write_same {m : Memory} (h : m.wf = true) (addr : Nat) (v : Byte) :
    (m.write addr v).read addr = v := by
  unfold Memory.wf at h
  generalize 0 = lo at h
  induction m generalizing lo with
  | nil =>
    have := Memory.read_cell_append [] addr v addr
    by_cases hv : v = Config.memReset <;> simp_all [Memory.write, Memory.read]
  | cons c rest ih =>
    obtain ⟨k, w⟩ := c
    have h' := h
    simp only [Memory.wfFrom, Bool.and_eq_true, decide_eq_true_eq] at h
    have below : ∀ a, a ≤ k → Memory.read rest a = Config.memReset := fun a ha => Memory.read_below h.2 (by omega)
    simp only [Memory.write]
    split
    · have ne : addr ≠ k := by omega
      by_cases hv : v = Config.memReset
      · simp [Memory.read_cell_append, hv, Memory.read, ne, below addr (by omega)]
      · simp [Memory.read_cell_append, hv]
    · split
      · by_cases hv : v = Config.memReset
        · simp [Memory.read_cell_append, hv, below addr (by omega)]
        · simp [Memory.read_cell_append, hv]
      · rename_i ne
        simpa [Memory.read, ne] using ih (k + 1) h.2

/-- A write inside memory keeps the canonical form, from any address on. -/
theorem Memory.wfFrom_write {m : Memory} {lo addr : Nat} (h : m.wfFrom lo = true) (v : Byte)
    (le : lo ≤ addr) (lt : addr < Config.memSize) : (m.write addr v).wfFrom lo = true := by
  induction m generalizing lo with
  | nil =>
    by_cases hv : v = Config.memReset <;> simp [Memory.write, Memory.cell, Memory.wfFrom, hv, le, lt]
  | cons c rest ih =>
    obtain ⟨k, w⟩ := c
    have h' := h
    simp only [Memory.wfFrom, Bool.and_eq_true, decide_eq_true_eq] at h
    obtain ⟨⟨⟨hlo, hk⟩, hw⟩, hrest⟩ := h
    simp only [Memory.write]
    split
    · rename_i lt'
      by_cases hv : v = Config.memReset
      · simpa [Memory.cell, hv] using h'
      · simp [Memory.cell, Memory.wfFrom, hv, le, lt, hk, hw, hrest]
        omega
    · split
      · rename_i e
        by_cases hv : v = Config.memReset
        · simpa [Memory.cell, hv] using Memory.wfFrom_mono hrest (by omega)
        · simp [Memory.cell, Memory.wfFrom, hv, le, lt]
          rw [e]
          exact hrest
      · simp [Memory.wfFrom, hlo, hk, hw]
        exact ih hrest (by omega)

/-- A write inside memory keeps the canonical form. -/
theorem Memory.wf_write {m : Memory} (h : m.wf = true) {addr : Nat} (v : Byte) (lt : addr < Config.memSize) :
    (m.write addr v).wf = true := Memory.wfFrom_write h v (Nat.zero_le _) lt

/-- The store of one byte keeps the canonical form, wherever it goes. -/
theorem Memory.wf_poke {s : State} (h : s.mem.wf = true) (addr : Nat) (v : Byte) : (s.poke addr v).mem.wf = true := by
  unfold State.poke
  by_cases lt : addr < Config.memSize
  · simpa [lt] using Memory.wf_write h v lt
  · simpa [lt] using h

/-- Storing bytes one after the other keeps the canonical form. -/
theorem Memory.wf_installFrom (bytes : List Byte) {addr : Nat} {s : State} (h : s.mem.wf = true) :
    (installFrom addr bytes s).mem.wf = true := by
  induction bytes generalizing addr s with
  | nil => exact h
  | cons v rest ih => exact ih (Memory.wf_poke h addr v)

/-- Reset's memory has the canonical form (R40). -/
theorem Memory.wf_reset : State.reset.mem.wf = true := rfl

/-- Reading after a store at another address. -/
theorem State.read_poke_other (s : State) {addr a : Nat} (v : Byte) (ne : a ≠ addr) :
    (s.poke addr v).mem.read a = s.mem.read a := by
  unfold State.poke
  by_cases lt : addr < Config.memSize <;> simp [lt, Memory.read_write_other s.mem v ne]

/-- Reading the stored byte. -/
theorem State.read_poke_same {s : State} (h : s.mem.wf = true) {addr : Nat} (v : Byte) (lt : addr < Config.memSize) :
    (s.poke addr v).mem.read addr = v := by
  simp [State.poke, lt, Memory.read_write_same h]

end Sys2Proof.Machine
end

