-- ==== Sys2Proof/Laws/State.lean ====
section
/-! SUPPORT. What each named update of the state does to each field, so that no later proof unfolds a record update. -/

namespace Sys2Proof.Machine

/-! ### `setReg` -/
@[simp] theorem State.setReg_regs (s : State) (i : Fin 8) (v : Byte) : (s.setReg i v).regs = s.regs.set i v := rfl
@[simp] theorem State.setReg_pc (s : State) (i : Fin 8) (v : Byte) : (s.setReg i v).pc = s.pc := rfl
@[simp] theorem State.setReg_fl (s : State) (i : Fin 8) (v : Byte) : (s.setReg i v).fl = s.fl := rfl
@[simp] theorem State.setReg_run (s : State) (i : Fin 8) (v : Byte) : (s.setReg i v).run = s.run := rfl
@[simp] theorem State.setReg_fault (s : State) (i : Fin 8) (v : Byte) : (s.setReg i v).fault = s.fault := rfl
@[simp] theorem State.setReg_mem (s : State) (i : Fin 8) (v : Byte) : (s.setReg i v).mem = s.mem := rfl
@[simp] theorem State.setReg_out (s : State) (i : Fin 8) (v : Byte) : (s.setReg i v).out = s.out := rfl


/-! ### `poke` -/
@[simp] theorem State.poke_regs (s : State) (addr : Nat) (v : Byte) : (s.poke addr v).regs = s.regs := rfl
@[simp] theorem State.poke_pc (s : State) (addr : Nat) (v : Byte) : (s.poke addr v).pc = s.pc := rfl
@[simp] theorem State.poke_fl (s : State) (addr : Nat) (v : Byte) : (s.poke addr v).fl = s.fl := rfl
@[simp] theorem State.poke_run (s : State) (addr : Nat) (v : Byte) : (s.poke addr v).run = s.run := rfl
@[simp] theorem State.poke_fault (s : State) (addr : Nat) (v : Byte) : (s.poke addr v).fault = s.fault := rfl
@[simp] theorem State.poke_mem (s : State) (addr : Nat) (v : Byte) : (s.poke addr v).mem = if addr < Config.memSize then s.mem.write addr v else s.mem := rfl
@[simp] theorem State.poke_out (s : State) (addr : Nat) (v : Byte) : (s.poke addr v).out = s.out := rfl
@[simp] theorem State.poke_reg (s : State) (addr : Nat) (v : Byte) (r : Fin 8) : (s.poke addr v).reg r = s.reg r := rfl


/-! ### `output` -/
@[simp] theorem State.output_regs (s : State) (v : Byte) : (s.output v).regs = s.regs := rfl
@[simp] theorem State.output_pc (s : State) (v : Byte) : (s.output v).pc = s.pc := rfl
@[simp] theorem State.output_fl (s : State) (v : Byte) : (s.output v).fl = s.fl := rfl
@[simp] theorem State.output_run (s : State) (v : Byte) : (s.output v).run = s.run := rfl
@[simp] theorem State.output_fault (s : State) (v : Byte) : (s.output v).fault = s.fault := rfl
@[simp] theorem State.output_mem (s : State) (v : Byte) : (s.output v).mem = s.mem := rfl
@[simp] theorem State.output_out (s : State) (v : Byte) : (s.output v).out = s.out ++ [v] := rfl
@[simp] theorem State.output_reg (s : State) (v : Byte) (r : Fin 8) : (s.output v).reg r = s.reg r := rfl


/-! ### `halt` -/
@[simp] theorem State.halt_regs (s : State) : (s.halt).regs = s.regs := rfl
@[simp] theorem State.halt_pc (s : State) : (s.halt).pc = s.pc := rfl
@[simp] theorem State.halt_fl (s : State) : (s.halt).fl = s.fl := rfl
@[simp] theorem State.halt_run (s : State) : (s.halt).run = .halted := rfl
@[simp] theorem State.halt_fault (s : State) : (s.halt).fault = s.fault := rfl
@[simp] theorem State.halt_mem (s : State) : (s.halt).mem = s.mem := rfl
@[simp] theorem State.halt_out (s : State) : (s.halt).out = s.out := rfl
@[simp] theorem State.halt_reg (s : State) (r : Fin 8) : (s.halt).reg r = s.reg r := rfl


/-! ### `setFlags` -/
@[simp] theorem State.setFlags_regs (s : State) (v : Byte) : (s.setFlags v).regs = s.regs := rfl
@[simp] theorem State.setFlags_pc (s : State) (v : Byte) : (s.setFlags v).pc = s.pc := rfl
@[simp] theorem State.setFlags_fl (s : State) (v : Byte) : (s.setFlags v).fl = v := rfl
@[simp] theorem State.setFlags_run (s : State) (v : Byte) : (s.setFlags v).run = s.run := rfl
@[simp] theorem State.setFlags_fault (s : State) (v : Byte) : (s.setFlags v).fault = s.fault := rfl
@[simp] theorem State.setFlags_mem (s : State) (v : Byte) : (s.setFlags v).mem = s.mem := rfl
@[simp] theorem State.setFlags_out (s : State) (v : Byte) : (s.setFlags v).out = s.out := rfl
@[simp] theorem State.setFlags_reg (s : State) (v : Byte) (r : Fin 8) : (s.setFlags v).reg r = s.reg r := rfl


/-! ### `jumpTo` -/
@[simp] theorem State.jumpTo_regs (s : State) (target : Byte) : (s.jumpTo target).regs = s.regs := rfl
@[simp] theorem State.jumpTo_pc (s : State) (target : Byte) : (s.jumpTo target).pc = target.setWidth 9 := rfl
@[simp] theorem State.jumpTo_fl (s : State) (target : Byte) : (s.jumpTo target).fl = s.fl := rfl
@[simp] theorem State.jumpTo_run (s : State) (target : Byte) : (s.jumpTo target).run = s.run := rfl
@[simp] theorem State.jumpTo_fault (s : State) (target : Byte) : (s.jumpTo target).fault = s.fault := rfl
@[simp] theorem State.jumpTo_mem (s : State) (target : Byte) : (s.jumpTo target).mem = s.mem := rfl
@[simp] theorem State.jumpTo_out (s : State) (target : Byte) : (s.jumpTo target).out = s.out := rfl
@[simp] theorem State.jumpTo_reg (s : State) (target : Byte) (r : Fin 8) : (s.jumpTo target).reg r = s.reg r := rfl


/-! ### `advance` -/
@[simp] theorem State.advance_regs (s : State) (ir : Byte) : (s.advance ir).regs = s.regs := rfl
@[simp] theorem State.advance_pc (s : State) (ir : Byte) : (s.advance ir).pc = BitVec.ofNat 9 (s.pc.toNat + 1 + operandCount ir) := rfl
@[simp] theorem State.advance_fl (s : State) (ir : Byte) : (s.advance ir).fl = s.fl := rfl
@[simp] theorem State.advance_run (s : State) (ir : Byte) : (s.advance ir).run = s.run := rfl
@[simp] theorem State.advance_fault (s : State) (ir : Byte) : (s.advance ir).fault = s.fault := rfl
@[simp] theorem State.advance_mem (s : State) (ir : Byte) : (s.advance ir).mem = s.mem := rfl
@[simp] theorem State.advance_out (s : State) (ir : Byte) : (s.advance ir).out = s.out := rfl
@[simp] theorem State.advance_reg (s : State) (ir : Byte) (r : Fin 8) : (s.advance ir).reg r = s.reg r := rfl


/-! ### `latch` -/
@[simp] theorem State.latch_regs (s : State) (k : Fault) : (s.latch k).regs = s.regs := rfl
@[simp] theorem State.latch_pc (s : State) (k : Fault) : (s.latch k).pc = s.pc := rfl
@[simp] theorem State.latch_fl (s : State) (k : Fault) : (s.latch k).fl = s.fl := rfl
@[simp] theorem State.latch_run (s : State) (k : Fault) : (s.latch k).run = s.run := rfl
@[simp] theorem State.latch_fault (s : State) (k : Fault) : (s.latch k).fault = some k := rfl
@[simp] theorem State.latch_mem (s : State) (k : Fault) : (s.latch k).mem = s.mem := rfl
@[simp] theorem State.latch_out (s : State) (k : Fault) : (s.latch k).out = s.out := rfl
@[simp] theorem State.latch_reg (s : State) (k : Fault) (r : Fin 8) : (s.latch k).reg r = s.reg r := rfl


/-! ### Reading a register after writing one -/

/-- The written register holds the value written (R25). -/
@[simp] theorem State.reg_setReg_same (s : State) (i : Fin 8) (v : Byte) : (s.setReg i v).reg i = v := by
  simp [State.reg, State.setReg]

/-- Writing one register leaves every other alone (R21). -/
theorem State.reg_setReg_other (s : State) {i r : Fin 8} (v : Byte) (h : r ≠ i) : (s.setReg i v).reg r = s.reg r := by
  have : i.val ≠ r.val := fun e => h (Fin.ext e.symm)
  simp [State.reg, State.setReg, Vector.getElem_set_ne, this]

/-- Both cases at once. -/
theorem State.reg_setReg (s : State) (i r : Fin 8) (v : Byte) :
    (s.setReg i v).reg r = if r = i then v else s.reg r := by
  by_cases h : r = i
  · subst h; simp
  · simp [h, State.reg_setReg_other s v h]

/-- A jump's target is the register's value as a number (R96). -/
theorem State.jumpTo_pc_toNat (s : State) (target : Byte) : (s.jumpTo target).pc.toNat = target.toNat := by
  have := target.isLt
  simp only [State.jumpTo_pc, BitVec.toNat_setWidth]
  omega

/-- Two states with the same registers one by one have the same register file. -/
theorem State.regs_ext {s t : State} (h : ∀ r : Fin 8, s.reg r = t.reg r) : s.regs = t.regs := by
  apply Vector.ext
  intro k hk
  exact h ⟨k, hk⟩

end Sys2Proof.Machine
end

