-- ==== Sys2Proof/Laws/Ops.lean ====
section
/-! SUPPORT. One lemma per shared operation: everything it can do, for later proofs to cite in place of unfolding it. -/

namespace Sys2Proof.Machine

/-! ### Raising and the checked memory accesses -/

/-- Raising answers a next state with the latch set, and nothing else changed (R158). -/
theorem raise_next {k : Fault} {s t : State} (h : raise k s = .next t) : t = s.latch k := by
  simpa [raise] using h.symm

/-- A read inside memory hands the byte on. -/
theorem memRead_inside {addr : Nat} (lt : addr < Config.memSize) (s : State) (use : Byte → Result) :
    memRead addr s use = use (s.mem.read addr) := by simp [memRead, lt]

/-- A read outside memory raises OutOfBoundsAccess (R52). -/
theorem memRead_outside {addr : Nat} (ge : Config.memSize ≤ addr) (s : State) (use : Byte → Result) :
    memRead addr s use = raise .outOfBoundsAccess s := by simp [memRead, Nat.not_lt.mpr ge]

/-- A write inside memory stores the byte. -/
theorem memWrite_inside {addr : Nat} (lt : addr < Config.memSize) (v : Byte) (s : State) :
    memWrite addr v s = .next (s.poke addr v) := by simp [memWrite, lt]

/-- A write outside memory raises OutOfBoundsAccess and stores nothing (R52). -/
theorem memWrite_outside {addr : Nat} (ge : Config.memSize ≤ addr) (v : Byte) (s : State) :
    memWrite addr v s = raise .outOfBoundsAccess s := by simp [memWrite, Nat.not_lt.mpr ge]

/-! ### Register operands -/

/-- The byte that names a register names it. -/
@[simp] theorem regIndex_regByte (i : Fin 8) : regIndex (regByte i) = some i := by
  revert i; decide

/-- The byte of a register is its number. -/
@[simp] theorem regByte_toNat (i : Fin 8) : (regByte i).toNat = i.val := by
  revert i; decide

/-- The byte of a register names a register. -/
@[simp] theorem namesRegister_regByte (i : Fin 8) : namesRegister (regByte i) = true := by
  revert i; decide

/-- Different registers have different bytes. -/
theorem regByte_injective {i j : Fin 8} (h : regByte i = regByte j) : i = j := by
  have := congrArg BitVec.toNat h
  simpa [Fin.ext_iff] using this

/-- A byte whose value is a register's number is the byte of that register. -/
theorem eq_regByte {a : Byte} {i : Fin 8} (h : a.toNat = i.val) : a = regByte i :=
  BitVec.eq_of_toNat_eq (by simpa using h)

/-- A byte above 7 names no register (R23). -/
theorem regIndex_above {a : Byte} (h : 7 < a.toNat) : regIndex a = none := by
  simp [regIndex, Nat.not_lt.mpr (show 8 ≤ a.toNat from h)]

/-- What a byte names: the register of its own value, or none when it is above 7. -/
theorem regIndex_cases (a : Byte) :
    (∃ i : Fin 8, regIndex a = some i ∧ a = regByte i ∧ a.toNat = i.val) ∨ (regIndex a = none ∧ 7 < a.toNat) := by
  by_cases h : a.toNat < 8
  · refine .inl ⟨⟨a.toNat, h⟩, by simp [regIndex, h], ?_, rfl⟩
    apply BitVec.eq_of_toNat_eq
    simp [regByte]
  · exact .inr ⟨by simp [regIndex, h], by omega⟩

/-- A register operand that names a register hands it on. -/
@[simp] theorem withRegister_regByte (i : Fin 8) (s : State) (use : Fin 8 → Result) :
    withRegister (regByte i) s use = use i := by simp [withRegister]

/-- A register operand above 7 raises OutOfBoundsAccess (R23). -/
theorem withRegister_above {a : Byte} (h : 7 < a.toNat) (s : State) (use : Fin 8 → Result) :
    withRegister a s use = raise .outOfBoundsAccess s := by simp [withRegister, regIndex_above h]

/-- Everything a register operand can do. -/
theorem withRegister_cases (a : Byte) (s : State) (use : Fin 8 → Result) :
    (∃ i : Fin 8, a = regByte i ∧ withRegister a s use = use i) ∨
      (7 < a.toNat ∧ withRegister a s use = raise .outOfBoundsAccess s) := by
  rcases regIndex_cases a with ⟨i, -, rfl, -⟩ | ⟨-, h⟩
  · exact .inl ⟨i, rfl, by simp⟩
  · exact .inr ⟨h, withRegister_above h s use⟩

/-- Everything two register operands can do: both are checked before either is used (R110). -/
theorem withRegisters_cases (a b : Byte) (s : State) (use : Fin 8 → Fin 8 → Result) :
    (∃ i j : Fin 8, a = regByte i ∧ b = regByte j ∧ withRegisters a b s use = use i j) ∨
      ((7 < a.toNat ∨ 7 < b.toNat) ∧ withRegisters a b s use = raise .outOfBoundsAccess s) := by
  unfold withRegisters
  rcases withRegister_cases a s fun i => withRegister b s fun j => use i j with ⟨i, rfl, h⟩ | ⟨h, e⟩
  · rcases withRegister_cases b s (use i) with ⟨j, rfl, h'⟩ | ⟨h', e⟩
    · exact .inl ⟨i, j, rfl, rfl, by rw [h, h']⟩
    · exact .inr ⟨.inr h', by rw [h, e]⟩
  · exact .inr ⟨.inl h, e⟩

/-! ### The stack addressing modes -/

/-- A stack address is always inside memory (R53, R130). -/
theorem stackAddress_lt (s : State) : stackAddress s < Config.memSize := (s.reg Config.spIndex).isLt

/-- The address PUSH stores to: the stack pointer less 1, modulo 256 (R131). -/
theorem stackAddress_preDecrement (s : State) :
    stackAddress (preDecrement s) = (s.reg Config.spIndex - 1#8).toNat := by
  simp [stackAddress, preDecrement]

/-! ### The meanings, case by case -/

/-- Everything PUSH can do. -/
theorem execPush_cases (a : Byte) (s : State) :
    (∃ i : Fin 8, a = regByte i ∧ execPush a s =
        .next ((preDecrement s).poke (stackAddress (preDecrement s)) ((preDecrement s).reg i))) ∨
      (7 < a.toNat ∧ execPush a s = raise .outOfBoundsAccess s) := by
  rcases withRegister_cases a s fun i =>
    memWrite (stackAddress (preDecrement s)) ((preDecrement s).reg i) (preDecrement s) with ⟨i, rfl, h⟩ | h
  · exact .inl ⟨i, rfl, h.trans (memWrite_inside (stackAddress_lt _) _ _)⟩
  · exact .inr h

/-- Everything POP can do. -/
theorem execPop_cases (a : Byte) (s : State) :
    (∃ i : Fin 8, a = regByte i ∧ execPop a s =
        .next (postIncrement (s.setReg i (s.mem.read (stackAddress s))))) ∨
      (7 < a.toNat ∧ execPop a s = raise .outOfBoundsAccess s) := by
  rcases withRegister_cases a s fun i =>
    memRead (stackAddress s) s fun v => .next (postIncrement (s.setReg i v)) with ⟨i, rfl, h⟩ | h
  · exact .inl ⟨i, rfl, h.trans (memRead_inside (stackAddress_lt _) _ _)⟩
  · exact .inr h

/-- Everything a jump can do. -/
theorem jumpWhen_cases (taken : Bool) (a : Byte) (s : State) :
    (taken = false ∧ jumpWhen taken a s = .next s) ∨
      (∃ i : Fin 8, taken = true ∧ a = regByte i ∧ jumpWhen taken a s = .next (s.jumpTo (s.reg i))) ∨
      (taken = true ∧ 7 < a.toNat ∧ jumpWhen taken a s = raise .outOfBoundsAccess s) := by
  cases taken with
  | false => exact .inl ⟨rfl, rfl⟩
  | true =>
    rcases withRegister_cases a s fun i => .next (s.jumpTo (s.reg i)) with ⟨i, rfl, h⟩ | ⟨h, e⟩
    · exact .inr (.inl ⟨i, rfl, rfl, h⟩)
    · exact .inr (.inr ⟨rfl, h, e⟩)

/-- The branch dispatcher at each jump's own opcode (R97). -/
@[simp] theorem branchTaken_jmp (fl : Byte) : branchTaken opJmp fl = true := rfl
@[simp] theorem branchTaken_jeq (fl : Byte) : branchTaken opJeq fl = equalFlag fl := rfl
@[simp] theorem branchTaken_jne (fl : Byte) : branchTaken opJne fl = !equalFlag fl := rfl

/-- A compare leaves exactly one of the three flags, by the unsigned relation (R116). -/
theorem compareFlags_cases (u v : Byte) :
    (u = v ∧ compareFlags u v = flagE) ∨ (u.toNat < v.toNat ∧ compareFlags u v = flagL) ∨
      (v.toNat < u.toNat ∧ compareFlags u v = flagG) := by
  unfold compareFlags
  split
  · exact .inl ⟨BitVec.eq_of_toNat_eq ‹_›, rfl⟩
  · split
    · exact .inr (.inl ⟨‹_›, rfl⟩)
    · exact .inr (.inr ⟨by omega, rfl⟩)

/-- What an instruction does to the state when no check fails, as one list of cases. -/
inductive Effect (s : State) : Instr → State → Prop where
  | hlt : Effect s .hlt s.halt
  | ldi {a : Byte} (i : Fin 8) (v : Byte) (ha : a = regByte i) : Effect s (.ldi a v) (s.setReg i v)
  | prn {a : Byte} (i : Fin 8) (ha : a = regByte i) : Effect s (.prn a) (s.output (s.reg i))
  | add {a b : Byte} (i j : Fin 8) (ha : a = regByte i) (hb : b = regByte j) :
      Effect s (.add a b) (s.setReg i (aluAdd (s.reg i) (s.reg j)))
  | mul {a b : Byte} (i j : Fin 8) (ha : a = regByte i) (hb : b = regByte j) :
      Effect s (.mul a b) (s.setReg i (aluMul (s.reg i) (s.reg j)))
  | cmp {a b : Byte} (i j : Fin 8) (ha : a = regByte i) (hb : b = regByte j) :
      Effect s (.cmp a b) (s.setFlags (compareFlags (s.reg i) (s.reg j)))
  | push {a : Byte} (i : Fin 8) (ha : a = regByte i) : Effect s (.push a)
      ((preDecrement s).poke (stackAddress (preDecrement s)) ((preDecrement s).reg i))
  | pop {a : Byte} (i : Fin 8) (ha : a = regByte i) : Effect s (.pop a)
      (postIncrement (s.setReg i (s.mem.read (stackAddress s))))
  | jmp {a : Byte} (i : Fin 8) (ha : a = regByte i) : Effect s (.jmp a) (s.jumpTo (s.reg i))
  | jeqTaken {a : Byte} (i : Fin 8) (ha : a = regByte i) (he : equalFlag s.fl = true) :
      Effect s (.jeq a) (s.jumpTo (s.reg i))
  | jeqNot (a : Byte) (he : equalFlag s.fl = false) : Effect s (.jeq a) s
  | jneTaken {a : Byte} (i : Fin 8) (ha : a = regByte i) (he : equalFlag s.fl = false) :
      Effect s (.jne a) (s.jumpTo (s.reg i))
  | jneNot (a : Byte) (he : equalFlag s.fl = true) : Effect s (.jne a) s

/-- Everything `exec` can do: it answers the instruction's own effect, or it raises OutOfBoundsAccess, and then some
register operand is above 7. -/
theorem exec_cases (i : Instr) (s : State) :
    (∃ t, exec i s = .next t ∧ Effect s i t) ∨
      (exec i s = raise .outOfBoundsAccess s ∧ i.wellFormed = false) := by
  have above : ∀ {a : Byte}, 7 < a.toNat → namesRegister a = false := fun h => by
    simp [namesRegister, Config.regCount]; omega
  have ctl : ∀ (ir a : Byte) (j : Instr), exec j s = jumpWhen (branchTaken ir s.fl) a s → j.wellFormed = namesRegister a →
      (∀ n : Fin 8, branchTaken ir s.fl = true → a = regByte n → Effect s j (s.jumpTo (s.reg n))) →
      (branchTaken ir s.fl = false → Effect s j s) →
      (∃ t, exec j s = .next t ∧ Effect s j t) ∨ (exec j s = raise .outOfBoundsAccess s ∧ j.wellFormed = false) := by
    intro ir a j he hw ht hn
    rcases jumpWhen_cases (branchTaken ir s.fl) a s with ⟨h, e⟩ | ⟨n, h, ha, e⟩ | ⟨h, ha, e⟩
    · exact .inl ⟨_, he.trans e, hn h⟩
    · exact .inl ⟨_, he.trans e, ht n h ha⟩
    · exact .inr ⟨he.trans e, hw.trans (above ha)⟩
  cases i with
  | hlt => exact .inl ⟨_, rfl, .hlt⟩
  | ldi a v =>
    rcases withRegister_cases a s fun i => .next (s.setReg i v) with ⟨i, rfl, h⟩ | ⟨h, e⟩
    · exact .inl ⟨_, h, .ldi i v rfl⟩
    · exact .inr ⟨e, above h⟩
  | prn a =>
    rcases withRegister_cases a s fun i => .next (s.output (s.reg i)) with ⟨i, rfl, h⟩ | ⟨h, e⟩
    · exact .inl ⟨_, h, .prn i rfl⟩
    · exact .inr ⟨e, above h⟩
  | add a b =>
    rcases withRegisters_cases a b s fun i j => .next (s.setReg i (aluAdd (s.reg i) (s.reg j))) with ⟨i, j, rfl, rfl, h⟩ | ⟨h, e⟩
    · exact .inl ⟨_, h, .add i j rfl rfl⟩
    · exact .inr ⟨e, by rcases h with h | h <;> simp [Instr.wellFormed, above h]⟩
  | mul a b =>
    rcases withRegisters_cases a b s fun i j => .next (s.setReg i (aluMul (s.reg i) (s.reg j))) with ⟨i, j, rfl, rfl, h⟩ | ⟨h, e⟩
    · exact .inl ⟨_, h, .mul i j rfl rfl⟩
    · exact .inr ⟨e, by rcases h with h | h <;> simp [Instr.wellFormed, above h]⟩
  | cmp a b =>
    rcases withRegisters_cases a b s fun i j => .next (s.setFlags (compareFlags (s.reg i) (s.reg j))) with
      ⟨i, j, rfl, rfl, h⟩ | ⟨h, e⟩
    · exact .inl ⟨_, h, .cmp i j rfl rfl⟩
    · exact .inr ⟨e, by rcases h with h | h <;> simp [Instr.wellFormed, above h]⟩
  | push a =>
    rcases execPush_cases a s with ⟨i, rfl, h⟩ | ⟨h, e⟩
    · exact .inl ⟨_, h, .push i rfl⟩
    · exact .inr ⟨e, above h⟩
  | pop a =>
    rcases execPop_cases a s with ⟨i, rfl, h⟩ | ⟨h, e⟩
    · exact .inl ⟨_, h, .pop i rfl⟩
    · exact .inr ⟨e, above h⟩
  | jeq a =>
    refine ctl opJeq a _ rfl rfl (fun n h ha => ?_) (fun h => .jeqNot a (by simpa using h))
    exact .jeqTaken n ha (by simpa using h)
  | jmp a =>
    refine ctl opJmp a _ rfl rfl (fun n _ ha => ?_) (fun h => by simp at h)
    exact .jmp n ha
  | jne a =>
    refine ctl opJne a _ rfl rfl (fun n h ha => ?_) (fun h => .jneNot a (by simpa using h))
    exact .jneTaken n ha (by simpa using h)

/-- Everything an instruction's next state can be. -/
theorem exec_next {i : Instr} {s t : State} (h : exec i s = .next t) :
    Effect s i t ∨ (t = s.latch .outOfBoundsAccess ∧ i.wellFormed = false) := by
  rcases exec_cases i s with ⟨u, e, eff⟩ | ⟨e, w⟩
  · rw [e] at h
    cases h
    exact .inl eff
  · exact .inr ⟨raise_next (e.symm.trans h), w⟩

end Sys2Proof.Machine
end

