-- ==== Sys2Proof/Laws/PerInstr.lean ====
section
/-! SUPPORT. For every instruction: its opcode byte alone gives its length, 1 + N bytes with N the top two bits (R72), and
marks the ALU instructions (R71), lemma by lemma. -/

namespace Sys2Proof.Laws.EncodedLength

/-- The encoding begins with the opcode and is 1 + N bytes long, N read from the opcode byte by the shift (R70, R72). -/
def Statement (i : Instr) : Prop :=
  (encode i).head? = some i.opcode ∧ (encode i).length = 1 + operandCount i.opcode

theorem hlt : Statement .hlt := ⟨rfl, rfl⟩
theorem ldi (a v : Byte) : Statement (.ldi a v) := ⟨rfl, (by decide : 3 = 1 + operandCount opLdi)⟩
theorem prn (a : Byte) : Statement (.prn a) := ⟨rfl, (by decide : 2 = 1 + operandCount opPrn)⟩
theorem add (a b : Byte) : Statement (.add a b) := ⟨rfl, (by decide : 3 = 1 + operandCount opAdd)⟩
theorem mul (a b : Byte) : Statement (.mul a b) := ⟨rfl, (by decide : 3 = 1 + operandCount opMul)⟩
theorem push (a : Byte) : Statement (.push a) := ⟨rfl, (by decide : 2 = 1 + operandCount opPush)⟩
theorem pop (a : Byte) : Statement (.pop a) := ⟨rfl, (by decide : 2 = 1 + operandCount opPop)⟩
theorem cmp (a b : Byte) : Statement (.cmp a b) := ⟨rfl, (by decide : 3 = 1 + operandCount opCmp)⟩
theorem jeq (a : Byte) : Statement (.jeq a) := ⟨rfl, (by decide : 2 = 1 + operandCount opJeq)⟩
theorem jmp (a : Byte) : Statement (.jmp a) := ⟨rfl, (by decide : 2 = 1 + operandCount opJmp)⟩
theorem jne (a : Byte) : Statement (.jne a) := ⟨rfl, (by decide : 2 = 1 + operandCount opJne)⟩

end Sys2Proof.Laws.EncodedLength
end

