-- ==== Sys2Proof/Laws/Step.lean ====
section
/-! SUPPORT. The step: when it is enabled, what the fetch answers, and everything a step can do. -/

namespace Sys2Proof.Machine

/-- Enabled means RUNNING and no fault (R90). -/
theorem State.enabled_iff (s : State) : s.enabled = true ↔ s.run = .running ∧ s.fault = none := by
  simp [State.enabled]

/-- The fetch inside its bound (R92). -/
theorem fetch_inside {s : State} (h : s.pc.toNat ≤ 253) :
    fetch s = some ⟨s.mem.read s.pc.toNat, s.mem.read (s.pc.toNat + 1), s.mem.read (s.pc.toNat + 2)⟩ := by
  simp [fetch, Config.lastFetch, h]

/-- The fetch outside its bound (R92). -/
theorem fetch_outside {s : State} (h : 253 < s.pc.toNat) : fetch s = none := by
  simp [fetch, Config.lastFetch, Nat.not_le.mpr h]

/-- What a successful fetch says. -/
theorem fetch_some {s : State} {f : Fetched} (h : fetch s = some f) :
    s.pc.toNat ≤ 253 ∧
      f = ⟨s.mem.read s.pc.toNat, s.mem.read (s.pc.toNat + 1), s.mem.read (s.pc.toNat + 2)⟩ := by
  by_cases le : s.pc.toNat ≤ 253
  · rw [fetch_inside le] at h
    exact ⟨le, (Option.some.inj h).symm⟩
  · rw [fetch_outside (by omega)] at h
    cases h

/-- The operand count is 0 to 3 (R72, R78). -/
theorem operandCount_le (ir : Byte) : operandCount ir ≤ 3 := by
  revert ir; decide

/-- The advance from a legal fetch address does not wrap (R94). -/
theorem advance_pc_toNat {s : State} (h : s.pc.toNat ≤ 253) (ir : Byte) :
    (s.advance ir).pc.toNat = s.pc.toNat + 1 + operandCount ir := by
  have := operandCount_le ir
  simp only [State.advance_pc, BitVec.toNat_ofNat]
  omega

/-- A run of one step more is a step and then the run. -/
theorem core_run_succ (n : Nat) (s : State) :
    core.run (n + 1) s = (match step s with
      | .next s' => core.run n s'
      | .fault r => .fault r
      | .refused r => .refused r) := by
  cases h : step s <;> simp [Host.Core.run, core, h]

/-- Everything a step that answers a next state can have done. -/
theorem step_next {s t : State} (h : step s = .next t) :
    (s.enabled = true ∧ 253 < s.pc.toNat ∧ t = s.latch .outOfBoundsAccess) ∨
      (∃ f i, s.enabled = true ∧ fetch s = some f ∧ decode f = .ok i ∧ exec i (s.advance f.ir) = .next t) ∨
      (∃ f e, s.enabled = true ∧ fetch s = some f ∧ decode f = .error e ∧ t = (s.advance f.ir).latch (decodeFault e)) ∨
      (s.enabled = false ∧ s.fault = none ∧ t = s) := by
  unfold step at h
  by_cases en : s.enabled = true
  · simp only [en, if_true] at h
    by_cases le : s.pc.toNat ≤ 253
    · rw [fetch_inside le] at h
      simp only at h
      split at h
      · exact .inr (.inl ⟨_, _, en, fetch_inside le, ‹_›, h⟩)
      · exact .inr (.inr (.inl ⟨_, _, en, fetch_inside le, ‹_›, raise_next h⟩))
    · rw [fetch_outside (by omega)] at h
      exact .inl ⟨en, by omega, raise_next h⟩
  · simp only [Bool.not_eq_true] at en
    simp only [en, Bool.false_eq_true, if_false, stopped] at h
    split at h
    · cases h
    · cases h
      exact .inr (.inr (.inr ⟨en, ‹_›, rfl⟩))

end Sys2Proof.Machine
end

