-- ==== Sys2Proof/Tests/Slice0.lean ====
section
/-! SUPPORT. Tests: illegal operand values the well-formedness check refuses, words written out from the spec's encodings, one
step a test with the results of spec/95_test_vectors.md (its row named), and for every statement with hypotheses a witness
that meets them. -/

namespace Sys2Proof.Tests

open Sys2Proof Sys2Proof.Machine

/-- The reset state with these bytes in memory from address 0. -/
def boot (bytes : List Byte) : State := installFrom 0 bytes State.reset

/-- The reset state with these bytes from address `p` on and `pc` at `p`. -/
def bootAt (p : PcWord) (bytes : List Byte) : State := { installFrom p.toNat bytes State.reset with pc := p }

/-- The outcome is a next state of which the check holds. -/
def answers (r : Result) (check : State → Bool) : Bool :=
  match r with
  | .next t => check t
  | _ => false

/-- A check that holds of the answer gives the next state it holds of. -/
theorem next_of {r : Result} {check : State → Bool} (h : answers r check = true) : ∃ t, r = .next t ∧ check t = true := by
  cases r with
  | next t => exact ⟨t, rfl, h⟩
  | fault k => cases h
  | refused k => cases h

/-! ### Well-formedness: an ill-formed term for each check (R79) -/

theorem test_illformed_ldi : (Instr.ldi 8#8 5#8).wellFormed = false := by decide
theorem test_illformed_prn : (Instr.prn 9#8).wellFormed = false := by decide
theorem test_illformed_add_first : (Instr.add 8#8 0#8).wellFormed = false := by decide
theorem test_illformed_add_second : (Instr.add 0#8 255#8).wellFormed = false := by decide
theorem test_illformed_mul_first : (Instr.mul 8#8 0#8).wellFormed = false := by decide
theorem test_illformed_mul_second : (Instr.mul 0#8 9#8).wellFormed = false := by decide
theorem test_illformed_cmp_first : (Instr.cmp 8#8 0#8).wellFormed = false := by decide
theorem test_illformed_cmp_second : (Instr.cmp 0#8 8#8).wellFormed = false := by decide
theorem test_illformed_push : (Instr.push 8#8).wellFormed = false := by decide
theorem test_illformed_pop : (Instr.pop 8#8).wellFormed = false := by decide
theorem test_illformed_jeq : (Instr.jeq 255#8).wellFormed = false := by decide
theorem test_illformed_jmp : (Instr.jmp 9#8).wellFormed = false := by decide
theorem test_illformed_jne : (Instr.jne 255#8).wellFormed = false := by decide
theorem test_wellformed_boundary : (Instr.add 7#8 0#8).wellFormed = true ∧ (Instr.ldi 7#8 255#8).wellFormed = true := by decide

/-! ### Decoding: a word written out bit by bit for every instruction (R75), the first byte in bits 7..0 -/

theorem test_word_hlt : decodeTableWord 8 0b00000001 = some .hlt := by decide
theorem test_word_ldi : decodeTableWord 24 0b11111110_00000011_10000010 = some (.ldi 3#8 254#8) := by decide
theorem test_word_prn : decodeTableWord 16 0b00000111_01000111 = some (.prn 7#8) := by decide
theorem test_word_add : decodeTableWord 24 0b00000001_00000010_10100000 = some (.add 2#8 1#8) := by decide
theorem test_word_mul : decodeTableWord 24 0b00000100_00000011_10100010 = some (.mul 3#8 4#8) := by decide
theorem test_word_push : decodeTableWord 16 0b00000101_01000101 = some (.push 5#8) := by decide
theorem test_word_pop : decodeTableWord 16 0b00000110_01000110 = some (.pop 6#8) := by decide
theorem test_word_cmp : decodeTableWord 24 0b00000000_00000111_10100111 = some (.cmp 7#8 0#8) := by decide
theorem test_word_jeq : decodeTableWord 16 0b00000010_01010101 = some (.jeq 2#8) := by decide
theorem test_word_jmp : decodeTableWord 16 0b00000011_01010100 = some (.jmp 3#8) := by decide
theorem test_word_jne : decodeTableWord 16 0b10000000_01010110 = some (.jne 128#8) := by decide

/-- X2 and X8 of the vectors, and a byte with bit 4 set that is no jump (X6): none decodes. -/
theorem test_word_rejected : decodeTableWord 24 0x0100A1 = none ∧ decodeTableWord 24 0x050083 = none ∧
    decodeTableWord 16 0x0057 = none ∧ decodeTableWord 8 0 = none := by decide

/-- The encoder on one instruction of each length (R70). -/
theorem test_encode : encode .hlt = [0x01#8] ∧ encode (.jne 2#8) = [0x56#8, 0x02#8] ∧
    encode (.ldi 0#8 5#8) = [0x82#8, 0x00#8, 0x05#8] := by decide

/-- What the host asks: a word placed at reset is the first instruction that runs (here LDI R1,7). -/
theorem test_word_placed : answers (step (State.reset.withFetchWord 24 0x070182)) (fun t => t.reg 1 == 7#8 && t.pc == 3#9) = true := by
  decide

/-! ### One step each, results from spec/95_test_vectors.md -/

/-- A3: 255 + 1 wraps to 0, FL unchanged. -/
theorem test_add_wraps : answers (step ((((boot [0xA0#8, 0x00#8, 0x01#8]).setReg 0 255#8).setReg 1 1#8).setFlags 4#8))
    (fun t => t.reg 0 == 0#8 && t.reg 1 == 1#8 && t.pc == 3#9 && t.fl == 4#8 && t.fault == none) = true := by decide
/-- A11: the second index out of range: `x[0]` is still 1, `pc` is advanced. -/
theorem test_add_bad_index : answers (step ((boot [0xA0#8, 0x00#8, 0xFF#8]).setReg 0 1#8))
    (fun t => t.reg 0 == 1#8 && t.pc == 3#9 && t.fault == some .outOfBoundsAccess) = true := by decide
/-- M6: 255 * 255 leaves the low byte of 65025. -/
theorem test_mul_low_byte : answers (step (((boot [0xA2#8, 0x00#8, 0x01#8]).setReg 0 255#8).setReg 1 255#8))
    (fun t => t.reg 0 == 1#8 && t.pc == 3#9) = true := by decide
/-- M9: the same register twice squares it: 289 mod 256. -/
theorem test_mul_square : answers (step ((boot [0xA2#8, 0x03#8, 0x03#8]).setReg 3 17#8)) (fun t => t.reg 3 == 33#8) = true := by
  decide
/-- C4: 0 against 255 is less (unsigned), the old E is cleared. -/
theorem test_cmp_unsigned_less : answers (step (((boot [0xA7#8, 0x00#8, 0x01#8]).setReg 1 255#8).setFlags 1#8))
    (fun t => t.fl == 4#8 && t.reg 1 == 255#8 && t.pc == 3#9) = true := by decide
/-- C5: 128 against 127 is greater, the old L is cleared. -/
theorem test_cmp_unsigned_greater :
    answers (step ((((boot [0xA7#8, 0x00#8, 0x01#8]).setReg 0 128#8).setReg 1 127#8).setFlags 4#8)) (fun t => t.fl == 2#8) = true := by
  decide
/-- F1: the last address a one-byte instruction executes at. -/
theorem test_hlt_at_253 : answers (step (bootAt 253#9 [0x01#8])) (fun t => t.run == .halted && t.pc == 254#9 && t.fault == none) = true := by
  decide
/-- L1, R120: after HLT no step is enabled. -/
theorem test_hlt_stops : answers (step (boot [0x01#8])) (fun t => t.run == .halted && !t.enabled && t.pc == 1#9) = true := by decide
/-- L3: LDI sets the stack pointer. -/
theorem test_ldi_r7 : answers (step (boot [0x82#8, 0x07#8, 0x20#8])) (fun t => t.reg 7 == 0x20#8 && t.pc == 3#9) = true := by decide
/-- L5: index 8 is not masked to 0. -/
theorem test_ldi_bad_index : answers (step (boot [0x82#8, 0x08#8, 0x05#8]))
    (fun t => t.reg 0 == 0#8 && t.pc == 3#9 && t.fault == some .outOfBoundsAccess) = true := by decide
/-- L7: PRN R7 prints the stack pointer. -/
theorem test_prn_r7 : answers (step (boot [0x47#8, 0x07#8, 0x01#8])) (fun t => t.out == [244#8] && t.pc == 2#9) = true := by decide
/-- L8: nothing is output for index 9. -/
theorem test_prn_bad_index : answers (step (boot [0x47#8, 0x09#8]))
    (fun t => t.out == [] && t.pc == 2#9 && t.fault == some .outOfBoundsAccess) = true := by decide
/-- K5, first step: PUSH R7 stores the decremented stack pointer. -/
theorem test_push_r7 : answers (step (boot [0x45#8, 0x07#8]))
    (fun t => t.reg 7 == 0xF3#8 && t.mem.read 0xF3 == 0xF3#8 && t.pc == 2#9) = true := by decide
/-- K3: the stack pointer wraps down from 0. -/
theorem test_push_wraps : answers (step (((boot [0x45#8, 0x00#8]).setReg 0 0xAB#8).setReg 7 0x00#8))
    (fun t => t.reg 7 == 0xFF#8 && t.mem.read 0xFF == 0xAB#8) = true := by decide
/-- K6, second step: POP R7 leaves the popped value plus 1; the cell keeps its value. -/
theorem test_pop_r7 : answers (step (((boot [0x46#8, 0x07#8]).setReg 7 0xF3#8).poke 0xF3 0x20#8))
    (fun t => t.reg 7 == 0x21#8 && t.mem.read 0xF3 == 0x20#8) = true := by decide
/-- K4: the stack pointer wraps up from 255. -/
theorem test_pop_wraps : answers (step (((boot [0x46#8, 0x00#8]).setReg 0 9#8).setReg 7 0xFF#8))
    (fun t => t.reg 0 == 0#8 && t.reg 7 == 0#8 && t.pc == 2#9) = true := by decide
/-- J1. -/
theorem test_jmp : answers (step ((bootAt 12#9 [0x54#8, 0x02#8]).setReg 2 19#8)) (fun t => t.pc == 19#9) = true := by decide
/-- J10: a bad index leaves the advanced `pc`. -/
theorem test_jmp_bad_index : answers (step (bootAt 12#9 [0x54#8, 0x09#8]))
    (fun t => t.pc == 14#9 && t.fault == some .outOfBoundsAccess) = true := by decide
/-- J2. -/
theorem test_jeq_taken : answers (step (((bootAt 12#9 [0x55#8, 0x02#8]).setReg 2 19#8).setFlags 1#8)) (fun t => t.pc == 19#9) = true := by
  decide
/-- J11: not taken, the index 255 is not examined. -/
theorem test_jeq_not_taken_unchecked : answers (step ((bootAt 12#9 [0x55#8, 0xFF#8]).setFlags 4#8))
    (fun t => t.pc == 14#9 && t.fault == none) = true := by decide
/-- J9: before any CMP JNE jumps. -/
theorem test_jne_before_cmp : answers (step ((bootAt 12#9 [0x56#8, 0x02#8]).setReg 2 19#8)) (fun t => t.pc == 19#9) = true := by decide
/-- J12: taken, the index 255 is examined. -/
theorem test_jne_taken_checked : answers (step ((bootAt 12#9 [0x56#8, 0xFF#8]).setFlags 4#8))
    (fun t => t.pc == 14#9 && t.fault == some .outOfBoundsAccess) = true := by decide

/-! ### The loop, faults, memory, the ends of a run -/

/-- F2: no instruction executes at 254, `pc` keeps its value. -/
theorem test_fetch_254 : answers (step (bootAt 254#9 [0x01#8]))
    (fun t => t.pc == 254#9 && t.fault == some .outOfBoundsAccess && t.run == .running) = true := by decide
/-- F4: a three-byte instruction at 253 executes and leaves `pc` 256. -/
theorem test_ldi_at_253 : answers (step (bootAt 253#9 [0x82#8, 0x01#8, 0x07#8]))
    (fun t => t.reg 1 == 7#8 && t.pc == 256#9 && t.fault == none) = true := by decide
/-- F6: the only way to 257. -/
theorem test_undefined_at_253 : answers (step (bootAt 253#9 [0xC0#8])) (fun t => t.pc == 257#9 && t.fault == some .unknownOpcode) = true := by
  decide
/-- X1 and P6: zero memory is no NOP. -/
theorem test_zero_byte : answers (step State.reset) (fun t => t.fault == some .unknownOpcode && t.pc == 1#9) = true := by decide
/-- X5: bit 5 set and N = 3. -/
theorem test_undefined_alu : answers (step (boot [0xE0#8])) (fun t => t.fault == some .unsupportedALUOperation && t.pc == 4#9) = true := by
  decide
/-- X7: the opcode error wins over bad indices. -/
theorem test_priority : answers (step (boot [0xA1#8, 0xFF#8, 0xFF#8]))
    (fun t => t.fault == some .unsupportedALUOperation && t.pc == 3#9) = true := by decide
/-- R34, R150: a faulted core stops with its kind. -/
theorem test_faulted_stops : step (State.reset.latch .unknownOpcode) = .fault .unknownOpcode := rfl
/-- R98: a halted core does nothing more. -/
theorem test_halted_stays : answers (step (boot [0x82#8, 0x00#8, 0x05#8]).halt) (fun t => t == (boot [0x82#8, 0x00#8, 0x05#8]).halt) = true := by
  decide
/-- Storing what an unlisted cell holds takes the cell out of the list; the list stays sorted. -/
theorem test_memory_canonical : ((Memory.write [] 9 1#8).write 3 2#8) = [(3, 2#8), (9, 1#8)] ∧
    (((Memory.write [] 9 1#8).write 3 2#8).write 9 0#8) = [(3, 2#8)] ∧
    Memory.wf [(9, 1#8), (3, 2#8)] = false ∧ Memory.wf [(3, 0#8)] = false ∧ Memory.wf [(256, 1#8)] = false := by decide
/-- R155, R165: the latch's codes and the two endings. -/
theorem test_endings : [none, some Fault.unknownOpcode, some .unsupportedALUOperation, some .outOfBoundsAccess].map faultCode = [0#2, 1#2, 2#2, 3#2] ∧
    State.reset.ending = none ∧ State.reset.halt.ending = some .success ∧
    (State.reset.latch .outOfBoundsAccess).ending = some (.failure .outOfBoundsAccess) := by decide
/-- R122: the lines a sink prints for 15 and 255. -/
theorem test_printed_text : ((State.reset.output 15#8).output 255#8).printedText = ['1', '5', '\n', '2', '5', '5', '\n'] := by decide

/-! ### Witnesses: concrete inputs that meet each statement's hypotheses, boundary values where there are bounds -/

theorem witness_EncodeOfDecodeGivesFetchedBytes : decodeTableWord 24 0xFF07A7 = some (.cmp 7#8 255#8) ∧
    decode ⟨0xA7#8, 7#8, 255#8⟩ = .ok (.cmp 7#8 255#8) := ⟨by decide, rfl⟩
theorem witness_OverReadBytesDoNotMatter : decode ⟨0x47#8, 7#8, 0xFF#8⟩ = .ok (.prn 7#8) ∧ (0x47#8).toNat / 64 = 1 ∧
    decode ⟨0x01#8, 0xFF#8, 0xFF#8⟩ = .ok .hlt ∧ (0x01#8).toNat / 64 = 0 := ⟨rfl, rfl, rfl, rfl⟩
theorem witness_StepRunsDecodedInstruction : (bootAt 253#9 [0x82#8, 0x01#8, 0x07#8]).run = .running ∧
    (bootAt 253#9 [0x82#8, 0x01#8, 0x07#8]).fault = none ∧ (bootAt 253#9 [0x82#8, 0x01#8, 0x07#8]).pc.toNat ≤ 253 ∧
    decode ⟨(bootAt 253#9 [0x82#8, 0x01#8, 0x07#8]).mem.read 253, (bootAt 253#9 [0x82#8, 0x01#8, 0x07#8]).mem.read 254,
      (bootAt 253#9 [0x82#8, 0x01#8, 0x07#8]).mem.read 255⟩ = .ok (.ldi 1#8 7#8) := ⟨rfl, rfl, by decide, rfl⟩
theorem witness_EnabledStepAnswersNext : State.reset.run = .running ∧ State.reset.fault = none := by decide
theorem witness_StoppedCoreStaysStopped : State.reset.halt.run = .halted ∧ State.reset.halt.fault = none ∧
    (State.reset.latch .outOfBoundsAccess).fault = some .outOfBoundsAccess := by decide
theorem witness_FetchAbove253Raises : (bootAt 254#9 []).run = .running ∧ (bootAt 254#9 []).fault = none ∧ 253 < (bootAt 254#9 []).pc.toNat := by
  decide
theorem witness_UndefinedHandlerByteRaisesUnknownOpcode : (bootAt 253#9 [0xDF#8]).run = .running ∧ (bootAt 253#9 [0xDF#8]).fault = none ∧
    (bootAt 253#9 [0xDF#8]).pc.toNat ≤ 253 ∧ ((bootAt 253#9 [0xDF#8]).mem.read 253).getLsbD 5 = false ∧
    (bootAt 253#9 [0xDF#8]).mem.read 253 ∉ [0x01#8, 0x82#8, 0x47#8, 0x45#8, 0x46#8, 0x54#8, 0x55#8, 0x56#8] := by decide
theorem witness_UndefinedAluByteRaisesUnsupported : (bootAt 253#9 [0xFF#8]).run = .running ∧ (bootAt 253#9 [0xFF#8]).fault = none ∧
    (bootAt 253#9 [0xFF#8]).pc.toNat ≤ 253 ∧ ((bootAt 253#9 [0xFF#8]).mem.read 253).getLsbD 5 = true ∧
    (bootAt 253#9 [0xFF#8]).mem.read 253 ∉ [0xA0#8, 0xA2#8, 0xA7#8] := by decide
/-- For ADD, MUL and (below) the others: the highest register 7 and the lowest byte above, 8. -/
theorem witness_register_bytes : (7#8 : Byte).toNat = (7 : Fin 8).val ∧ (0#8 : Byte).toNat = (0 : Fin 8).val ∧ 7 < (8#8 : Byte).toNat ∧
    7 < (255#8 : Byte).toNat := by decide
theorem witness_AddResult : (7#8 : Byte).toNat = (7 : Fin 8).val ∧ (0#8 : Byte).toNat = (0 : Fin 8).val ∧
    (7 < (8#8 : Byte).toNat ∨ 7 < (0#8 : Byte).toNat) ∧ (7 < (0#8 : Byte).toNat ∨ 7 < (8#8 : Byte).toNat) := by decide
theorem witness_MulResult : (3#8 : Byte).toNat = (3 : Fin 8).val ∧ (7#8 : Byte).toNat = (7 : Fin 8).val ∧
    (7 < (3#8 : Byte).toNat ∨ 7 < (8#8 : Byte).toNat) := by decide
theorem witness_CmpResult : (6#8 : Byte).toNat = (6 : Fin 8).val ∧ (7#8 : Byte).toNat = (7 : Fin 8).val ∧
    (State.reset.reg 6).toNat < (State.reset.reg 7).toNat ∧ (State.reset.reg 7).toNat > (State.reset.reg 6).toNat ∧
    (State.reset.reg 6).toNat = (State.reset.reg 0).toNat ∧ (7 < (0#8 : Byte).toNat ∨ 7 < (8#8 : Byte).toNat) := by decide
theorem witness_HltResult : (bootAt 253#9 [0x01#8]).run = .running ∧ (bootAt 253#9 [0x01#8]).fault = none ∧
    (bootAt 253#9 [0x01#8]).pc.toNat ≤ 253 ∧ (bootAt 253#9 [0x01#8]).mem.read 253 = 0b00000001#8 := by decide
theorem witness_LdiResult : (7#8 : Byte).toNat = (7 : Fin 8).val ∧ 7 < (8#8 : Byte).toNat := by decide
theorem witness_PrnResult : (7#8 : Byte).toNat = (7 : Fin 8).val ∧ 7 < (8#8 : Byte).toNat := by decide
theorem witness_PushResult : (7#8 : Byte).toNat = (7 : Fin 8).val ∧ (6#8 : Byte).toNat = (6 : Fin 8).val ∧ 7 < (8#8 : Byte).toNat := by decide
theorem witness_PopResult : (6#8 : Byte).toNat = (6 : Fin 8).val ∧ (6 : Fin 8) ≠ 7 ∧ (7#8 : Byte).toNat = 7 ∧ 7 < (8#8 : Byte).toNat := by decide
theorem witness_JmpResult : (7#8 : Byte).toNat = (7 : Fin 8).val ∧ 7 < (8#8 : Byte).toNat := by decide
theorem witness_JeqResult : (State.reset.setFlags flagE).fl.getLsbD 0 = true ∧ (7#8 : Byte).toNat = (7 : Fin 8).val ∧
    7 < (8#8 : Byte).toNat ∧ (State.reset.setFlags flagL).fl.getLsbD 0 = false := by decide
theorem witness_JneResult : (State.reset.setFlags flagG).fl.getLsbD 0 = false ∧ (7#8 : Byte).toNat = (7 : Fin 8).val ∧
    7 < (8#8 : Byte).toNat ∧ (State.reset.setFlags flagE).fl.getLsbD 0 = true := by decide
theorem witness_FrameOfAddMulLdi : (∃ t, exec (.mul 7#8 6#8) State.reset = .next t ∧ (t.fault == none) = true) ∧
    (Instr.mul 7#8 6#8).wellFormed = true ∧ (6 : Fin 8).val ≠ (7#8 : Byte).toNat ∧
    Instr.mul 7#8 6#8 ∈ [Instr.add 7#8 6#8, Instr.mul 7#8 6#8, Instr.ldi 7#8 6#8] := ⟨next_of (by decide), by decide, by decide, by decide⟩
theorem witness_FrameOfCmp : (∃ t, exec (.cmp 7#8 6#8) State.reset = .next t ∧ (t.fl == flagG) = true) ∧
    (Instr.cmp 7#8 6#8).wellFormed = true ∧ (∃ t, exec (.cmp 7#8 8#8) State.reset = .next t ∧ (t.fl == 0#8) = true) ∧
    (Instr.cmp 7#8 8#8).wellFormed = false := ⟨next_of (by decide), by decide, next_of (by decide), by decide⟩
theorem witness_FrameOfPrnHlt : (∃ t, exec (.prn 7#8) State.reset = .next t ∧ (t.out == [0xF4#8]) = true) ∧
    (Instr.prn 7#8).wellFormed = true ∧ (∃ t, exec .hlt State.reset = .next t ∧ (t.run == .halted) = true) ∧
    Instr.hlt ∈ [Instr.prn 7#8, Instr.hlt] := ⟨next_of (by decide), by decide, next_of (by decide), by decide⟩
theorem witness_FrameOfJumps : (∃ t, exec (.jne 7#8) State.reset = .next t ∧ (t.pc == 0xF4#9) = true) ∧ (Instr.jne 7#8).wellFormed = true ∧
    Instr.jne 7#8 ∈ [Instr.jmp 7#8, Instr.jeq 7#8, Instr.jne 7#8] := ⟨next_of (by decide), by decide, by decide⟩
theorem witness_FrameOfPush : (∃ t, exec (.push 7#8) State.reset = .next t ∧ (t.mem.read 0xF3 == 0xF3#8) = true) ∧ (7#8 : Byte).toNat ≤ 7 ∧
    (0xF4 : Nat) ≠ stackAddress (preDecrement State.reset) ∧ State.reset.mem.wf = true ∧
    (∃ t, exec (.push 8#8) State.reset = .next t ∧ (t.reg 7 == 0xF4#8) = true) ∧ 7 < (8#8 : Byte).toNat :=
  ⟨next_of (by decide), by decide, by decide, by decide, next_of (by decide), by decide⟩
theorem witness_FrameOfPop : (∃ t, exec (.pop 6#8) State.reset = .next t ∧ (t.reg 7 == 0xF5#8) = true) ∧ (6#8 : Byte).toNat ≤ 7 ∧
    (5 : Fin 8) ≠ 7 ∧ (5 : Fin 8).val ≠ (6#8 : Byte).toNat ∧
    (∃ t, exec (.pop 8#8) State.reset = .next t ∧ (t.reg 7 == 0xF4#8) = true) ∧ 7 < (8#8 : Byte).toNat :=
  ⟨next_of (by decide), by decide, by decide, by decide, next_of (by decide), by decide⟩
theorem witness_FlagsWrittenOnlyByCompare :
    (∃ t, step (boot [0xA7#8, 0x07#8, 0x00#8]) = .next t ∧ (decide (t.fl ≠ (boot [0xA7#8, 0x07#8, 0x00#8]).fl)) = true) ∧
    (∃ t, exec (.add 0#8 7#8) State.reset = .next t ∧ (t.fl == 0#8) = true) ∧ (∀ a b, Instr.add 0#8 7#8 ≠ .cmp a b) ∧
    (7#8 : Byte).toNat ≤ 7 ∧ (∃ t, exec (.jeq 7#8) State.reset = .next t ∧ (t.pc == 0#9) = true) ∧
    (∃ t, exec (.jeq 7#8) { State.reset with fl := 1#8 } = .next t ∧ (t.pc == 0xF4#9) = true) :=
  ⟨next_of (by decide), next_of (by decide), nofun, by decide, next_of (by decide), next_of (by decide)⟩
theorem witness_OnlyPushWritesMemory : (∃ t, step (boot [0x45#8, 0x07#8]) = .next t ∧ (decide (t.mem ≠ (boot [0x45#8, 0x07#8]).mem)) = true) ∧
    (0xF4 : Nat) ≠ ((boot [0x45#8, 0x07#8]).reg 7 - 1#8).toNat := ⟨next_of (by decide), by decide⟩
theorem witness_OnlyPrnWritesOutput : ∃ t, step (boot [0x47#8, 0x07#8]) = .next t ∧ (decide (t.out ≠ (boot [0x47#8, 0x07#8]).out)) = true :=
  next_of (by decide)
theorem witness_OnlyHltReachesHaltedForGood :
    (∃ t, step (bootAt 253#9 [0x01#8]) = .next t ∧ (t.run == .halted) = true) ∧ (bootAt 253#9 [0x01#8]).run = .running ∧
    (∃ t, step State.reset.halt = .next t ∧ (t.run == .halted) = true) ∧ State.reset.halt.run = .halted ∧
    (∃ t, exec (.prn 0#8) State.reset = .next t ∧ (t.run == .running) = true) :=
  ⟨next_of (by decide), by decide, next_of (by decide), by decide, next_of (by decide)⟩
theorem witness_FaultChangesOnlyPcAndLatch :
    (∃ t, step (bootAt 254#9 []) = .next t ∧ (t.fault == some .outOfBoundsAccess) = true) ∧ 253 < (bootAt 254#9 []).pc.toNat ∧
    (∃ t, step (bootAt 253#9 [0x45#8, 0x08#8]) = .next t ∧ (t.fault == some .outOfBoundsAccess) = true) ∧
    (bootAt 253#9 [0x45#8, 0x08#8]).pc.toNat ≤ 253 ∧
    (∃ t, step (bootAt 253#9 [0xC0#8]) = .next t ∧ (t.fault == some .unknownOpcode && t.pc == 257#9) = true) :=
  ⟨next_of (by decide), by decide, next_of (by decide), by decide, next_of (by decide)⟩
/-- One step for each kind, and for each way to OutOfBoundsAccess; and one that raises none. -/
theorem witness_EachFaultKindExactlyWhen :
    answers (step (bootAt 253#9 [0x00#8])) (fun t => t.fault == some .unknownOpcode) = true ∧
    answers (step (bootAt 253#9 [0x20#8])) (fun t => t.fault == some .unsupportedALUOperation) = true ∧
    answers (step (bootAt 254#9 [0x00#8])) (fun t => t.fault == some .outOfBoundsAccess) = true ∧
    answers (step (boot [0xA7#8, 0x07#8, 0x08#8])) (fun t => t.fault == some .outOfBoundsAccess) = true ∧
    answers (step (boot [0x46#8, 0x08#8])) (fun t => t.fault == some .outOfBoundsAccess) = true ∧
    answers (step ((boot [0x55#8, 0x08#8]).setFlags 1#8)) (fun t => t.fault == some .outOfBoundsAccess) = true ∧
    answers (step (boot [0x56#8, 0x08#8])) (fun t => t.fault == some .outOfBoundsAccess) = true ∧
    answers (step (boot [0x55#8, 0x08#8])) (fun t => t.fault == none) = true := by decide
theorem witness_LegalOperandsNeverFault : (Instr.add 7#8 0#8).wellFormed = true := by decide
theorem witness_PcMuxSelectsNextPc :
    answers (step (boot [0x54#8, 0x07#8])) (fun t => t.fault == none && t.pc == 0xF4#9) = true ∧
    answers (step ((boot [0x55#8, 0x07#8]).setFlags 1#8)) (fun t => t.fault == none && t.pc == 0xF4#9) = true ∧
    answers (step (boot [0x56#8, 0x07#8])) (fun t => t.fault == none && t.pc == 0xF4#9) = true ∧
    answers (step (boot [0x55#8, 0x07#8])) (fun t => t.fault == none && t.pc == 2#9) = true ∧
    answers (step (bootAt 253#9 [0x82#8, 0x07#8])) (fun t => t.fault == none && t.pc == 256#9) = true := by decide
theorem witness_AdvanceAddsLengthToPc : (bootAt 253#9 [0x82#8, 0x01#8, 0x07#8]).pc.toNat ≤ 253 ∧ (0x82#8).toNat / 64 = 2 ∧
    answers (step (bootAt 253#9 [0x82#8, 0x01#8, 0x07#8])) (fun t => decide (253 < t.pc.toNat) && t.run == .running && t.fault == none) = true ∧
    (0x82#8 : Byte) ∉ [0x54#8, 0x55#8, 0x56#8] := by decide
theorem witness_BranchDependsOnEqualBitOnly : (6#8 : Byte).getLsbD 0 = State.reset.fl.getLsbD 0 ∧
    (∃ t, step (boot [0x56#8, 0x07#8]) = .next t ∧ (t.pc == 0xF4#9) = true) := ⟨by decide, next_of (by decide)⟩
theorem witness_CompareThenExactlyOneJumpTaken : State.reset.reg 0 = State.reset.reg 6 ∧ State.reset.reg 0 ≠ State.reset.reg 7 := by decide
/-- PUSH R6 then POP R0 at the highest address 251, with the stack pointer at 0, so that it wraps. -/
theorem witness_PushThenPopRestores :
    let s := (bootAt 251#9 [0x45#8, 0x06#8, 0x46#8, 0x00#8]).setReg 7 0#8
    (6 : Fin 8) ≠ 7 ∧ (0 : Fin 8) ≠ 7 ∧ s.run = .running ∧ s.fault = none ∧ s.mem.wf = true ∧ s.pc.toNat ≤ 251 ∧
    s.mem.read s.pc.toNat = 0x45#8 ∧ s.mem.read (s.pc.toNat + 1) = regByte 6 ∧ s.mem.read (s.pc.toNat + 2) = 0x46#8 ∧
    s.mem.read (s.pc.toNat + 3) = regByte 0 ∧ (s.reg 7 - 1#8).toNat ≠ s.pc.toNat + 2 ∧ (s.reg 7 - 1#8).toNat ≠ s.pc.toNat + 3 := by decide
theorem witness_PushSevenThenPop : State.reset.mem.wf = true ∧ (6 : Fin 8) ≠ 7 := by decide
/-- P9 of the vectors, its PUSH: the stack pointer is one above the next opcode. -/
theorem witness_PushedByteIsNextOpcode :
    let s := ((bootAt 6#9 [0x45#8, 0x00#8]).setReg 0 0x01#8).setReg 7 9#8
    s.run = .running ∧ s.fault = none ∧ s.mem.wf = true ∧ s.pc.toNat ≤ 251 ∧ s.mem.read s.pc.toNat = 0x45#8 ∧
    s.mem.read (s.pc.toNat + 1) = regByte 0 ∧ (s.reg 7 - 1#8).toNat = s.pc.toNat + 2 := by decide
/-- The case i = 7 at the highest address 251: PUSH R7 puts the decremented stack pointer, 253, at 253, the next opcode's place. -/
theorem witness_PushedByteIsNextOpcode_seven :
    let s := (bootAt 251#9 [0x45#8, 0x07#8]).setReg 7 254#8
    s.run = .running ∧ s.fault = none ∧ s.mem.wf = true ∧ s.pc.toNat ≤ 251 ∧ s.mem.read s.pc.toNat = 0x45#8 ∧
    s.mem.read (s.pc.toNat + 1) = regByte 7 ∧ (s.reg 7 - 1#8).toNat = s.pc.toNat + 2 ∧
    answers (step s) (fun t => t.mem.read 253 == 0xFD#8 && t.pc == 253#9) = true := by decide
/-- P11 of the vectors, at its JMP; and the same at the highest address. -/
theorem witness_JumpToItselfLoopsForEver :
    let s := (bootAt 253#9 [0x54#8, 0x00#8]).setReg 0 253#8
    s.run = .running ∧ s.fault = none ∧ s.pc.toNat ≤ 253 ∧ s.mem.read s.pc.toNat = 0x54#8 ∧
    s.mem.read (s.pc.toNat + 1) = regByte 0 ∧ (s.reg 0).toNat = s.pc.toNat := by decide
theorem witness_InstructionsReadOnlyRegistersMemoryFlags :
    State.reset.SameReadable { State.reset.halt with pc := 7#9, out := [1#8], fault := some .unknownOpcode } ∧
    (∃ t, exec (.prn 7#8) State.reset = .next t ∧ (t.out == [0xF4#8]) = true) ∧
    (∃ t, exec .hlt State.reset = .next t ∧ (t.run == .halted) = true) ∧
    (∃ t, exec (.prn 8#8) State.reset = .next t ∧ (t.fault == some .outOfBoundsAccess) = true) :=
  ⟨⟨rfl, rfl, rfl⟩, next_of (by decide), next_of (by decide), next_of (by decide)⟩
theorem witness_StepKeepsInvariant : (bootAt 253#9 [0xC0#8]).Inv ∧
    (∃ t, step (bootAt 253#9 [0xC0#8]) = .next t ∧ (t.pc == 257#9) = true) := ⟨by decide, next_of (by decide)⟩
theorem witness_CanonicalMemoriesReadingAlikeAreEqual : Memory.wf [(0, 1#8), (255, 255#8)] = true ∧
    (∀ addr : Nat, addr < 256 → Memory.read [(0, 1#8), (255, 255#8)] addr = Memory.read [(0, 1#8), (255, 255#8)] addr) :=
  ⟨by decide, fun _ _ => rfl⟩
theorem witness_ResetStateValues : (6 : Fin 8) ≠ 7 := by decide
theorem witness_ProgramIsInstalledFromZero : (List.replicate 256 0xFF#8).length ≤ 256 ∧ 255 < (List.replicate 256 0xFF#8).length ∧
    ([0x01#8] : List Byte).length ≤ 1 := by
  rw [List.length_replicate]
  exact ⟨Nat.le_refl 256, Nat.lt_succ_self 255, Nat.le_refl 1⟩
theorem witness_TooLongProgramHasNoRun : 256 < (List.replicate 257 0x01#8).length := by
  rw [List.length_replicate]
  exact Nat.lt_succ_self 256
theorem witness_PlacedWordIsNextInstruction : (bootAt 253#9 []).run = .running ∧ (bootAt 253#9 []).fault = none ∧
    (bootAt 253#9 []).mem.wf = true ∧ (bootAt 253#9 []).pc.toNat ≤ 253 ∧ decodeTableWord 24 0x0700A0 = some (.add 0#8 7#8) := by decide

end Sys2Proof.Tests
end

section
/-! PROOFS of the family 10_state.md, the facts: what an instruction's effect does to each field of the state, and what a step
does outside `pc` and the fault latch. -/

namespace Sys2Proof.Machine

/-! ### What an effect does, field by field -/

section
variable {s t : State} {i : Instr}

/-- An effect writes FL only for CMP, and then with a compare's byte (R31, R113). -/
theorem Effect.fl_cases (h : Effect s i t) :
    t.fl = s.fl ∨ ∃ a b u v, i = .cmp a b ∧ t.fl = compareFlags u v := by
  cases h
  case cmp => exact .inr ⟨_, _, _, _, rfl, rfl⟩
  all_goals exact .inl rfl

/-- An effect writes memory only for PUSH, and then one byte just below the stack pointer (R51, R131). -/
theorem Effect.mem_cases (h : Effect s i t) :
    t.mem = s.mem ∨ ∃ a v, i = .push a ∧ t.mem = (s.poke (s.reg 7 - 1#8).toNat v).mem := by
  cases h
  case push =>
    rw [stackAddress_preDecrement]
    exact .inr ⟨_, _, rfl, rfl⟩
  all_goals exact .inl rfl

/-- An effect writes RUN only for HLT (R33). -/
theorem Effect.run_cases (h : Effect s i t) : t.run = s.run ∨ i = .hlt := by
  cases h
  case hlt => exact .inr rfl
  all_goals exact .inl rfl

/-- An effect writes `pc` only by a taken jump, with a register's value (R96). -/
theorem Effect.pc_cases (h : Effect s i t) : t.pc = s.pc ∨ ∃ v : Byte, t.pc = (s.jumpTo v).pc := by
  cases h
  case jmp | jeqTaken | jneTaken => exact .inr ⟨_, rfl⟩
  all_goals exact .inl rfl

/-- No effect touches the fault latch. -/
theorem Effect.fault_eq (h : Effect s i t) : t.fault = s.fault := by
  cases h <;> rfl

end

/-! ### What a step does outside `pc` and the fault latch -/

/-- A step that answers a next state carries out the effect of the instruction whose opcode stands at `pc`, or leaves everything
but `pc` and the fault latch as it was. -/
theorem step_effect_or_rest {s t : State} (h : step s = .next t) :
    (∃ i : Instr, s.pc.toNat ≤ 253 ∧ s.mem.read s.pc.toNat = i.opcode ∧ Effect (s.advance i.opcode) i t) ∨
      t = { s with pc := t.pc, fault := t.fault } := by
  rcases step_next h with ⟨-, -, rfl⟩ | ⟨f, i, -, hf, hd, he⟩ | ⟨f, e, -, -, -, rfl⟩ | ⟨-, -, rfl⟩
  · exact .inr rfl
  · obtain ⟨hpc, hw⟩ := fetch_some hf
    have hop : f.ir = i.opcode := (decode_ok hd).1
    rw [hop] at he
    rcases exec_next he with eff | ⟨rfl, -⟩
    · exact .inl ⟨i, hpc, by rw [← hop, hw], eff⟩
    · exact .inr rfl
  · exact .inr rfl
  · exact .inr rfl

end Sys2Proof.Machine
end

section
/-! PROOFS of the family 10_state.md, the invariant: it holds at reset and every step keeps it. -/

namespace Sys2Proof.Machine

/-- The opcode of an instruction announces at most two operand bytes (R75). -/
theorem operandCount_opcode_le (i : Instr) : operandCount i.opcode ≤ 2 := by
  cases i <;> simp [Instr.opcode]

/-- A compare's byte is one of E, G, L (R116). -/
theorem compareFlags_oneHot (u v : Byte) : compareFlags u v ∈ [0b001#8, 0b010#8, 0b100#8] := by
  rcases compareFlags_cases u v with ⟨-, e⟩ | ⟨-, e⟩ | ⟨-, e⟩ <;> rw [e] <;> decide

/-- Raising a fault in a RUNNING state leaves the invariant, `pc` 257 allowed. -/
theorem State.latch_inv {s : State} (k : Fault) (hmem : s.mem.wf = true) (hpc : s.pc.toNat ≤ 257)
    (hfl : s.fl ∈ [0x00#8, 0x01#8, 0x02#8, 0x04#8]) (hrun : s.run = .running) : (s.latch k).Inv :=
  ⟨hmem, hpc, nofun, hfl, fun halted => by simp [hrun] at halted⟩

/-- Past a decoded opcode the invariant still holds: `pc` is at most 256 (R94). -/
theorem State.advance_opcode_inv {s : State} (inv : s.Inv) (hpc : s.pc.toNat ≤ 253) (i : Instr) :
    (s.advance i.opcode).Inv := by
  obtain ⟨hmem, -, -, hfl, hrun⟩ := inv
  have le : (s.advance i.opcode).pc.toNat ≤ 256 := by
    have := operandCount_opcode_le i
    rw [advance_pc_toNat hpc]
    omega
  exact ⟨hmem, by omega, fun _ => le, hfl, hrun⟩

/-- An effect keeps the invariant of a state without a fault. -/
theorem Effect.inv {s t : State} {i : Instr} (h : Effect s i t) (inv : s.Inv) (nofault : s.fault = none) : t.Inv := by
  obtain ⟨hmem, -, hpc, hfl, -⟩ := inv
  have mem : t.mem.wf = true := by
    rcases h.mem_cases with e | ⟨-, v, -, e⟩
    · rwa [e]
    · rw [e]
      exact Memory.wf_poke hmem _ v
  have pc : t.pc.toNat ≤ 256 := by
    rcases h.pc_cases with e | ⟨v, e⟩
    · rw [e]
      exact hpc nofault
    · rw [e, State.jumpTo_pc_toNat]
      exact v.isLt.le
  have fl : t.fl ∈ [0x00#8, 0x01#8, 0x02#8, 0x04#8] := by
    rcases h.fl_cases with e | ⟨-, -, u, v, -, e⟩
    · rwa [e]
    · rw [e]
      exact List.mem_cons_of_mem _ (compareFlags_oneHot u v)
  exact ⟨mem, by omega, fun _ => pc, fl, fun _ => h.fault_eq.trans nofault⟩

/-- An instruction keeps the invariant of an enabled state. -/
theorem exec_inv {s t : State} {i : Instr} (h : exec i s = .next t) (inv : s.Inv) (en : s.enabled = true) : t.Inv := by
  obtain ⟨hrun, nofault⟩ := s.enabled_iff.mp en
  rcases exec_next h with eff | ⟨rfl, -⟩
  · exact eff.inv inv nofault
  · obtain ⟨hmem, hpc, -, hfl, -⟩ := inv
    exact State.latch_inv _ hmem hpc hfl hrun

/-- Settles O44: each way a step can end (fetch fault, instruction, undefined opcode, no step enabled) keeps the invariant. -/
theorem stepKeepsInvariant : Obligations.StepKeepsInvariant := by
  intro s t inv h
  have ⟨hmem, hpc, _, hfl, _⟩ := inv
  rcases step_next h with ⟨en, -, rfl⟩ | ⟨f, i, en, hf, hd, he⟩ | ⟨f, e, en, hf, -, rfl⟩ | ⟨-, -, rfl⟩
  · exact State.latch_inv _ hmem hpc hfl (s.enabled_iff.mp en).1
  · rw [(decode_ok hd).1] at he
    exact exec_inv he (State.advance_opcode_inv inv (fetch_some hf).1 i) en
  · obtain ⟨legal, -⟩ := fetch_some hf
    have hpc' : (s.advance f.ir).pc.toNat ≤ 257 := by
      have := operandCount_le f.ir
      rw [advance_pc_toNat legal]
      omega
    exact State.latch_inv _ hmem hpc' hfl (s.enabled_iff.mp en).1
  · exact inv

/-- Settles O45. -/
theorem resetHasInvariant : Obligations.ResetHasInvariant :=
  ⟨Memory.wf_reset, by decide, fun _ => by decide, by decide, nofun⟩

/-- Settles O47: the registers by looking at the eight of them, memory because nothing is listed. -/
theorem resetStateValues : Obligations.ResetStateValues :=
  ⟨by decide, rfl, rfl, rfl, rfl, rfl, rfl, fun _ => rfl⟩

end Sys2Proof.Machine
end

section
/-! PROOFS of the family 10_state.md, the frames of the ALU instructions and LDI. -/

namespace Sys2Proof.Machine

/-- ADD, MUL and LDI write one register, the one their first operand names, or raise on an ill-formed operand (R111, R112, R121). -/
theorem exec_addMulLdi_next {a b : Byte} {s t : State} {i : Instr}
    (hi : i ∈ [Instr.add a b, Instr.mul a b, Instr.ldi a b]) (h : exec i s = .next t) :
    (∃ (r : Fin 8) (v : Byte), a = regByte r ∧ t = s.setReg r v) ∨
      (t = s.latch .outOfBoundsAccess ∧ i.wellFormed = false) := by
  rcases exec_next h with eff | bad
  · simp only [List.mem_cons, List.not_mem_nil, or_false] at hi
    rcases hi with rfl | rfl | rfl <;> cases eff <;> exact .inl ⟨_, _, ‹a = _›, rfl⟩
  · exact .inr bad

/-- Settles O22: a register write and a raised fault each leave the rest alone. -/
theorem frameOfAddMulLdi : Obligations.FrameOfAddMulLdi := by
  intro a b s t i hi h
  rcases exec_addMulLdi_next hi h with ⟨r, v, rfl, rfl⟩ | ⟨rfl, bad⟩
  · refine ⟨fun q hq => State.reg_setReg_other s v fun e => hq ?_, rfl, rfl, rfl, rfl, fun _ => rfl, fun _ => rfl⟩
    rw [e, regByte_toNat]
  · exact ⟨fun _ _ => rfl, rfl, rfl, rfl, rfl, fun good => absurd (good.symm.trans bad) nofun, fun _ => rfl⟩

/-- Settles O23: CMP with two registers writes FL alone, otherwise it raises. -/
theorem frameOfCmp : Obligations.FrameOfCmp := by
  intro a b s t h
  rcases exec_next h with eff | ⟨rfl, bad⟩
  · cases eff with
    | cmp i j ha hb =>
      have good : Instr.wellFormed (.cmp a b) = true := by simp [Instr.wellFormed, ha, hb]
      exact ⟨fun _ => rfl, rfl, rfl, rfl, fun _ => rfl, fun bad => absurd (good.symm.trans bad) nofun, fun _ => rfl⟩
  · exact ⟨fun _ => rfl, rfl, rfl, rfl, fun good => absurd (good.symm.trans bad) nofun, fun _ => rfl, fun _ => rfl⟩

end Sys2Proof.Machine
end

section
/-! PROOFS of the family 10_state.md, what an instruction reads: what it writes is a function of registers and memory, and for the
jumps of FL too. -/

namespace Sys2Proof.Machine

/-- What an instruction writes: the whole register file and memory, and each other field or nothing; the bytes it appends to OUT. -/
structure Writes where
  regs : Vector Byte 8
  mem : Memory
  fl : Option Byte := none
  pc : Option PcWord := none
  run : Option RunState := none
  fault : Option Fault := none
  out : List Byte := []

/-- The state after the writes. -/
def Writes.applyTo (w : Writes) (s : State) : State where
  regs := w.regs
  mem := w.mem
  fl := w.fl.getD s.fl
  pc := w.pc.getD s.pc
  run := w.run.getD s.run
  fault := w.fault.or s.fault
  out := s.out ++ w.out

/-- On every state with the registers and memory of `s`, `f` answers a next state with the same writes. -/
def WritesFixed (s : State) (f : State → Result) : Prop :=
  ∃ w : Writes, ∀ s' : State, s.regs = s'.regs → s.mem = s'.mem → f s' = .next (w.applyTo s')

/-- A state with the registers and memory of `s` is `s` but for the other fields. -/
theorem WritesFixed.intro {s : State} {f : State → Result} (w : Writes)
    (h : ∀ pc fl run fault out, f ⟨s.regs, pc, fl, run, fault, s.mem, out⟩ =
      .next (w.applyTo ⟨s.regs, pc, fl, run, fault, s.mem, out⟩)) : WritesFixed s f := by
  refine ⟨w, fun s' hr hm => ?_⟩
  obtain ⟨regs, pc, fl, run, fault, mem, out⟩ := s'
  cases hr
  cases hm
  exact h pc fl run fault out

/-- Raising writes the latch. -/
theorem writesFixed_raise (s : State) (k : Fault) : WritesFixed s (raise k) :=
  .intro { regs := s.regs, mem := s.mem, fault := some k } fun _ _ _ _ _ => by
    simp [raise, State.latch, Writes.applyTo]

/-- A register operand: what its use writes is fixed when it is for each register. -/
theorem writesFixed_withRegister {s : State} (a : Byte) {use : State → Fin 8 → Result}
    (h : ∀ i, WritesFixed s fun s' => use s' i) : WritesFixed s fun s' => withRegister a s' (use s') := by
  rcases regIndex_cases a with ⟨i, -, rfl, -⟩ | ⟨-, above⟩
  · simpa only [withRegister_regByte] using h i
  · simpa only [withRegister_above above] using writesFixed_raise s _

/-- Two register operands: what their use writes is fixed when it is for each pair of registers. -/
theorem writesFixed_withRegisters {s : State} (a b : Byte) {use : State → Fin 8 → Fin 8 → Result}
    (h : ∀ i j, WritesFixed s fun s' => use s' i j) : WritesFixed s fun s' => withRegisters a b s' (use s') :=
  writesFixed_withRegister a fun i => writesFixed_withRegister b (h i)

/-- A binary operation on two registers, its result written to the first (R111, R112). -/
theorem writesFixed_setRegOf (s : State) (a b : Byte) (op : Byte → Byte → Byte) :
    WritesFixed s fun s' => withRegisters a b s' fun i j => .next (s'.setReg i (op (s'.reg i) (s'.reg j))) :=
  writesFixed_withRegisters a b fun i j =>
    .intro { regs := s.regs.set i (op (s.reg i) (s.reg j)), mem := s.mem } fun _ _ _ _ _ => by
      simp [State.setReg, State.reg, Writes.applyTo]

/-- A jump whose branch is decided: the register's value, read as the target. -/
theorem writesFixed_jumpWhen (s : State) (taken : Bool) (a : Byte) : WritesFixed s (jumpWhen taken a) := by
  cases taken with
  | false => exact .intro { regs := s.regs, mem := s.mem } fun _ _ _ _ _ => by simp [jumpWhen, Writes.applyTo]
  | true =>
    exact writesFixed_withRegister a fun i =>
      .intro { regs := s.regs, mem := s.mem, pc := some ((s.reg i).setWidth 9) } fun _ _ _ _ _ => by
        simp [State.jumpTo, State.reg, Writes.applyTo]

/-- Every instruction writes what registers and memory determine, or is a jump, decided by FL (R27, R31, R33, R34, R97). -/
theorem exec_writesFixed_or_jump (i : Instr) (s : State) :
    WritesFixed s (exec i) ∨ ∃ ir a, ∀ s', exec i s' = jumpWhen (branchTaken ir s'.fl) a s' := by
  cases i
  case jmp a => exact .inr ⟨opJmp, a, fun _ => rfl⟩
  case jeq a => exact .inr ⟨opJeq, a, fun _ => rfl⟩
  case jne a => exact .inr ⟨opJne, a, fun _ => rfl⟩
  all_goals left
  case hlt =>
    exact .intro { regs := s.regs, mem := s.mem, run := some .halted } fun _ _ _ _ _ => by
      simp [exec, execHlt, State.halt, Writes.applyTo]
  case ldi a v =>
    exact writesFixed_withRegister a fun i => .intro { regs := s.regs.set i v, mem := s.mem } fun _ _ _ _ _ => by
      simp [State.setReg, Writes.applyTo]
  case prn a =>
    exact writesFixed_withRegister a fun i =>
      .intro { regs := s.regs, mem := s.mem, out := [s.reg i] } fun _ _ _ _ _ => by
        simp [State.output, State.reg, Writes.applyTo]
  case add a b =>
    exact writesFixed_setRegOf s a b aluAdd
  case mul a b =>
    exact writesFixed_setRegOf s a b aluMul
  case cmp a b =>
    exact writesFixed_withRegisters a b fun i j =>
      .intro { regs := s.regs, mem := s.mem, fl := some (compareFlags (s.reg i) (s.reg j)) } fun _ _ _ _ _ => by
        simp [State.setFlags, State.reg, Writes.applyTo]
  case push a =>
    refine writesFixed_withRegister a fun i => .intro
      { regs := (preDecrement s).regs,
        mem := ((preDecrement s).poke (stackAddress (preDecrement s)) ((preDecrement s).reg i)).mem } fun _ _ _ _ _ => ?_
    rw [memWrite_inside (stackAddress_lt _)]
    simp [State.poke, preDecrement, stackAddress, State.setReg, State.reg, Writes.applyTo]
  case pop a =>
    refine writesFixed_withRegister a fun i => .intro
      { regs := (postIncrement (s.setReg i (s.mem.read (stackAddress s)))).regs, mem := s.mem } fun _ _ _ _ _ => ?_
    rw [memRead_inside (stackAddress_lt _)]
    simp [postIncrement, stackAddress, State.setReg, State.reg, Writes.applyTo]

/-- What an instruction writes is determined by registers, memory and FL (R27, R33, R34, R39). -/
theorem exec_writes (i : Instr) (s : State) :
    ∃ w : Writes, ∀ s' : State, s.SameReadable s' → exec i s' = .next (w.applyTo s') := by
  rcases exec_writesFixed_or_jump i s with ⟨w, hw⟩ | ⟨ir, a, jump⟩
  · exact ⟨w, fun s' ⟨hr, hm, _⟩ => hw s' hr hm⟩
  · obtain ⟨w, hw⟩ := writesFixed_jumpWhen s (branchTaken ir s.fl) a
    exact ⟨w, fun s' ⟨hr, hm, hf⟩ => by rw [jump s', ← hf, hw s' hr hm]⟩

/-- A jump, taken or not, writes no register, no byte of memory and no output (R145). -/
theorem jumpWhen_frame {taken : Bool} {a : Byte} {s t : State} (h : jumpWhen taken a s = .next t) :
    t.regs = s.regs ∧ t.mem = s.mem ∧ t.out = s.out := by
  rcases jumpWhen_cases taken a s with ⟨-, e⟩ | ⟨i, -, -, e⟩ | ⟨-, -, e⟩ <;>
    obtain rfl := Host.Outcome.next.inj (e.symm.trans h) <;> exact ⟨rfl, rfl, rfl⟩

/-- A field of `Writes` leaves both of two values alone or makes them the same. -/
theorem getD_alike {α : Type} (v : Option α) (x y : α) : v.getD x = x ∧ v.getD y = y ∨ v.getD x = v.getD y := by
  cases v <;> simp

/-- Settles O43: both runs make the same writes. -/
theorem instructionsReadOnlyRegistersMemoryFlags : Obligations.InstructionsReadOnlyRegistersMemoryFlags := by
  intro i s s' t same h
  obtain ⟨w, hw⟩ := exec_writes i s
  obtain rfl : w.applyTo s = t := Host.Outcome.next.inj ((hw s ⟨rfl, rfl, rfl⟩).symm.trans h)
  have flags : (w.applyTo s).fl = (w.applyTo s').fl := congrArg w.fl.getD same.2.2
  have latch : (w.applyTo s).fault = s.fault ∧ (w.applyTo s').fault = s'.fault ∨
      (w.applyTo s).fault = (w.applyTo s').fault := by
    cases e : w.fault <;> simp [Writes.applyTo, e]
  exact ⟨_, hw s' same, ⟨rfl, rfl, flags⟩, ⟨w.out, rfl, rfl⟩, getD_alike _ _ _, getD_alike _ _ _, latch⟩

end Sys2Proof.Machine
end

section
/-! PROOFS of the family 10_state.md, the only writers of FL, memory and RUN. -/

namespace Sys2Proof.Machine

/-- An instruction other than CMP leaves FL as it was (R31). -/
theorem exec_fl_eq {i : Instr} {s t : State} (h : exec i s = .next t) (hi : ∀ a b, i ≠ .cmp a b) : t.fl = s.fl := by
  rcases exec_next h with eff | ⟨rfl, -⟩
  · rcases eff.fl_cases with e | ⟨a, b, -, -, e, -⟩
    · exact e
    · exact absurd e (hi a b)
  · rfl

/-- A step that changes FL is at the CMP opcode (R31). -/
theorem step_fl_changed {s t : State} (h : step s = .next t) (ne : t.fl ≠ s.fl) : s.mem.read s.pc.toNat = opCmp := by
  rcases step_effect_or_rest h with ⟨i, -, hop, eff⟩ | e
  · rcases eff.fl_cases with e | ⟨a, b, -, -, rfl, -⟩
    · exact absurd e ne
    · exact hop
  · exact absurd (congrArg State.fl e) ne

/-- CMP on two registers completes, and leaves one flag set (R113, R116). -/
theorem exec_cmp_oneHot (i j : Fin 8) (s : State) :
    ∃ t, exec (.cmp (regByte i) (regByte j)) s = .next t ∧ t.fl ∈ [0b001#8, 0b010#8, 0b100#8] :=
  ⟨s.setFlags (compareFlags (s.reg i) (s.reg j)), by simp [exec, execCmp, withRegisters], compareFlags_oneHot _ _⟩

/-- Whatever FL holds, an instruction writes the same registers, memory and output (R31). -/
theorem exec_data_ignores_fl {i : Instr} {s t u : State} {v : Byte} (ht : exec i s = .next t)
    (hu : exec i { s with fl := v } = .next u) : u.regs = t.regs ∧ u.mem = t.mem ∧ u.out = t.out := by
  rcases exec_writesFixed_or_jump i s with ⟨w, hw⟩ | ⟨ir, a, jump⟩
  · obtain rfl := Host.Outcome.next.inj ((hw s rfl rfl).symm.trans ht)
    obtain rfl := Host.Outcome.next.inj ((hw { s with fl := v } rfl rfl).symm.trans hu)
    exact ⟨rfl, rfl, rfl⟩
  · rw [jump] at ht hu
    obtain ⟨tr, tm, tout⟩ := jumpWhen_frame ht
    obtain ⟨ur, um, uout⟩ := jumpWhen_frame hu
    exact ⟨ur.trans tr.symm, um.trans tm.symm, uout.trans tout.symm⟩

/-- Settles O28, clause by clause. -/
theorem flagsWrittenOnlyByCompare : Obligations.FlagsWrittenOnlyByCompare := by
  refine ⟨fun _ _ => step_fl_changed, fun _ _ _ => exec_fl_eq, fun a b s ha hb => ?_,
    fun _ _ _ _ _ => exec_data_ignores_fl⟩
  rw [eq_regByte (i := ⟨a.toNat, by omega⟩) rfl, eq_regByte (a := b) (i := ⟨b.toNat, by omega⟩) rfl]
  exact exec_cmp_oneHot _ _ s

/-- Settles O29: the one effect that writes memory is PUSH's, one byte just below the stack pointer. -/
theorem onlyPushWritesMemory : Obligations.OnlyPushWritesMemory := by
  intro s t h ne
  rcases step_effect_or_rest h with ⟨i, -, hop, eff⟩ | e
  · rcases eff.mem_cases with e | ⟨a, v, rfl, e⟩
    · exact absurd e ne
    · refine ⟨hop, fun addr other => ?_⟩
      rw [e]
      exact State.read_poke_other _ v other
  · exact absurd (congrArg State.mem e) ne

/-- A step from RUNNING to HALTED is at the HLT opcode, inside the fetch bound (R33, R92, R120). -/
theorem step_halts_at_hlt {s t : State} (h : step s = .next t) (hs : s.run = .running) (ht : t.run = .halted) :
    s.pc.toNat ≤ 253 ∧ s.mem.read s.pc.toNat = opHlt := by
  have ne : t.run ≠ s.run := by simp [hs, ht]
  rcases step_effect_or_rest h with ⟨i, hpc, hop, eff⟩ | e
  · rcases eff.run_cases with e | rfl
    · exact absurd e ne
    · exact ⟨hpc, hop⟩
  · exact absurd (congrArg State.run e) ne

/-- A step of a HALTED core that answers a next state answers the same one (R90, R98). -/
theorem step_halted_eq {s t : State} (h : step s = .next t) (hs : s.run = .halted) : t = s := by
  have disabled : s.enabled ≠ true := by simp [State.enabled_iff, hs]
  rcases step_next h with ⟨en, -, -⟩ | ⟨_, _, en, -, -, -⟩ | ⟨_, _, en, -, -, -⟩ | ⟨-, -, e⟩
  · exact absurd en disabled
  · exact absurd en disabled
  · exact absurd en disabled
  · exact e

/-- Run with another RUN, an instruction answers the same state but for RUN (R33). -/
theorem exec_ignores_run {i : Instr} {s t : State} (r : RunState) (h : exec i s = .next t) :
    ∃ u, exec i { s with run := r } = .next u ∧ { u with run := t.run } = t := by
  obtain ⟨w, hw⟩ := exec_writes i s
  obtain rfl := Host.Outcome.next.inj ((hw s ⟨rfl, rfl, rfl⟩).symm.trans h)
  exact ⟨_, hw _ ⟨rfl, rfl, rfl⟩, rfl⟩

/-- Settles O31, clause by clause. -/
theorem onlyHltReachesHaltedForGood : Obligations.OnlyHltReachesHaltedForGood :=
  ⟨rfl, fun _ _ => step_halts_at_hlt, fun _ _ => step_halted_eq, fun _ _ _ r => exec_ignores_run r⟩

end Sys2Proof.Machine
end

section
/-! PROOFS of the family 20_memory.md, the memory list as data: a canonical list is determined by what it reads. -/

namespace Sys2Proof.Machine

/-- When a list with a first cell is canonical. -/
theorem Memory.wfFrom_cons {lo k : Nat} {w : Byte} {rest : Memory} :
    Memory.wfFrom lo ((k, w) :: rest) = true ↔
      lo ≤ k ∧ k < 256 ∧ w ≠ Config.memReset ∧ Memory.wfFrom (k + 1) rest = true := by
  simp only [Memory.wfFrom, Bool.and_eq_true, decide_eq_true_eq, and_assoc]
  exact Iff.rfl

/-- The first cell's byte is read at its address. -/
@[simp] theorem Memory.read_cons_same (k : Nat) (w : Byte) (rest : Memory) :
    Memory.read ((k, w) :: rest) k = w := by
  simp [Memory.read]

/-- At another address the first cell does not count. -/
theorem Memory.read_cons_other {k addr : Nat} (w : Byte) (rest : Memory) (ne : addr ≠ k) :
    Memory.read ((k, w) :: rest) addr = Memory.read rest addr := by
  simp [Memory.read, ne]

/-- A canonical list that reads what another one's first cell holds starts no later than that cell. -/
theorem Memory.start_le_of_reads {n rest : Memory} {lo lo' k : Nat} {w : Byte}
    (hm : Memory.wfFrom lo ((k, w) :: rest) = true) (hn : n.wfFrom lo' = true) (reads : w = n.read k) : lo' ≤ k := by
  obtain ⟨-, -, hw, -⟩ := Memory.wfFrom_cons.mp hm
  by_contra after
  exact hw (reads.trans (Memory.read_below hn (Nat.lt_of_not_le after)))

/-- The rests of two canonical lists that read alike and have the same first cell read alike: up to that cell both list
nothing, and past it the cell does not count. -/
theorem Memory.reads_alike_rest {k : Nat} {w : Byte} {m n : Memory} (hm : m.wfFrom (k + 1) = true)
    (hn : n.wfFrom (k + 1) = true)
    (alike : ∀ addr < 256, Memory.read ((k, w) :: m) addr = Memory.read ((k, w) :: n) addr) :
    ∀ addr < 256, m.read addr = n.read addr := by
  intro addr lt
  rcases Nat.lt_or_ge k addr with after | before
  · have ne : addr ≠ k := by omega
    simpa only [Memory.read_cons_other w _ ne] using alike addr lt
  · have below : addr < k + 1 := by omega
    rw [Memory.read_below hm below, Memory.read_below hn below]

/-- Lists canonical from some address on that read alike are equal. -/
theorem Memory.eq_of_reads_alike {m n : Memory} {lo lo' : Nat} (hm : m.wfFrom lo = true) (hn : n.wfFrom lo' = true)
    (alike : ∀ addr < 256, m.read addr = n.read addr) : m = n := by
  induction m generalizing n lo lo' with
  | nil =>
    cases n with
    | nil => rfl
    | cons c n =>
      obtain ⟨k, w⟩ := c
      obtain ⟨-, lt, hw, -⟩ := Memory.wfFrom_cons.mp hn
      have reads : w = Memory.read [] k := by simpa using (alike k lt).symm
      exact absurd reads hw
  | cons c m ih =>
    obtain ⟨k, w⟩ := c
    obtain ⟨-, lt, hw, restm⟩ := Memory.wfFrom_cons.mp hm
    have reads : w = n.read k := by simpa using alike k lt
    cases n with
    | nil => exact absurd reads hw
    | cons c n =>
      obtain ⟨k', w'⟩ := c
      obtain ⟨-, lt', hw', restn⟩ := Memory.wfFrom_cons.mp hn
      have reads' : w' = Memory.read ((k, w) :: m) k' := by simpa using (alike k' lt').symm
      have fromHead : Memory.wfFrom k ((k, w) :: m) = true := Memory.wfFrom_cons.mpr ⟨le_rfl, lt, hw, restm⟩
      have fromHead' : Memory.wfFrom k' ((k', w') :: n) = true := Memory.wfFrom_cons.mpr ⟨le_rfl, lt', hw', restn⟩
      obtain rfl : k = k' := Nat.le_antisymm (Memory.start_le_of_reads fromHead' fromHead reads')
        (Memory.start_le_of_reads fromHead fromHead' reads)
      obtain rfl : w = w' := by simpa using reads
      rw [ih restm restn (Memory.reads_alike_rest restm restn alike)]

/-- Settles O46, by induction on one list: the first cells agree, then the rests. -/
theorem canonicalMemoriesReadingAlikeAreEqual : Obligations.CanonicalMemoriesReadingAlikeAreEqual :=
  fun _ _ hm hn alike => Memory.eq_of_reads_alike hm hn alike

end Sys2Proof.Machine
end

section
/-! PROOFS of the family 20_memory.md, code in memory: the next fetch sees the byte a PUSH has just stored. -/

namespace Sys2Proof.Machine

/-- An enabled step whose fetched bytes decode runs the instruction past its own bytes (R91, R95). -/
theorem step_eq_exec {s : State} {i : Instr} (en : s.enabled = true) (hpc : s.pc.toNat ≤ 253)
    (hd : decode ⟨s.mem.read s.pc.toNat, s.mem.read (s.pc.toNat + 1), s.mem.read (s.pc.toNat + 2)⟩ = .ok i) :
    step s = exec i (s.advance (s.mem.read s.pc.toNat)) := by
  simp [step, en, fetch_inside hpc, hd]

/-- The state PUSH leaves when its operand names a register (R131). -/
def pushed (i : Fin 8) (s : State) : State :=
  (preDecrement s).poke (stackAddress (preDecrement s)) ((preDecrement s).reg i)

/-- PUSH of a register leaves `pushed`. -/
theorem exec_push_regByte (i : Fin 8) (s : State) : exec (.push (regByte i)) s = .next (pushed i s) := by
  simp [exec, execPush, memWrite_inside (stackAddress_lt _), pushed]

/-- PUSH leaves `pc` where it was. -/
@[simp] theorem pushed_pc (i : Fin 8) (s : State) : (pushed i s).pc = s.pc := rfl

/-- A step at a PUSH of a register leaves `pushed` past the two bytes. -/
theorem step_at_push {s : State} {i : Fin 8} (en : s.enabled = true) (hpc : s.pc.toNat ≤ 253)
    (hop : s.mem.read s.pc.toNat = opPush) (ha : s.mem.read (s.pc.toNat + 1) = regByte i) :
    step s = .next (pushed i (s.advance opPush)) := by
  have hd := decode_of_opcode (.push (regByte i)) (regByte i) (s.mem.read (s.pc.toNat + 2))
    (by simp [Instr.operands, Instr.opcode])
  rw [step_eq_exec en hpc (by rw [hop, ha]; exact hd), hop, exec_push_regByte]

/-- What PUSH stores: the register, or the decremented stack pointer for R7 (R131; decision D19). -/
theorem preDecrement_reg (i : Fin 8) (s : State) :
    (preDecrement s).reg i = if i = 7 then s.reg 7 - 1#8 else s.reg i :=
  State.reg_setReg s 7 i _

/-- The byte PUSH stored is read back at the stack address (R59, R131). -/
theorem pushed_read {s : State} (wf : s.mem.wf = true) (i : Fin 8) :
    (pushed i s).mem.read (s.reg 7 - 1#8).toNat = if i = 7 then s.reg 7 - 1#8 else s.reg i := by
  have addr : (s.reg 7 - 1#8).toNat = stackAddress (preDecrement s) := (stackAddress_preDecrement s).symm
  rw [addr, pushed, State.read_poke_same (s := preDecrement s) wf _ (stackAddress_lt _), preDecrement_reg]

/-- Settles O41: the step leaves `pc` at the stack address, where the fetch reads the byte just stored. -/
theorem pushedByteIsNextOpcode : Obligations.PushedByteIsNextOpcode := by
  intro s i hrun hfault wf hpc hop ha hsp
  have next : (pushed i (s.advance opPush)).pc.toNat = s.pc.toNat + 2 := by
    rw [pushed_pc, advance_pc_toNat (by omega), operandCount_opPush]
  refine ⟨_, _, step_at_push (s.enabled_iff.mpr ⟨hrun, hfault⟩) (by omega) hop ha, fetch_inside (by omega), ?_⟩
  rw [next, ← hsp]
  exact pushed_read (s := s.advance opPush) wf i

end Sys2Proof.Machine
end

section
/-! PROOFS of the family 30_encoding.md: a fetch window decodes to an instruction exactly when it holds that instruction's
bytes, so encoding and decoding are inverse and nothing past the instruction counts. -/

namespace Sys2Proof

/-! ### The opcode map -/

/-- Every instruction's opcode is in the opcode map, here in the order of R75's table. -/
theorem Instr.opcode_mem (i : Instr) : i.opcode ∈
    [opHlt, opLdi, opPrn, opAdd, opMul, opPush, opPop, opCmp, opJeq, opJmp, opJne] := by
  cases i <;> simp [Instr.opcode]

/-! ### What a window that decodes holds -/

/-- A window decodes to an instruction exactly when it begins with that instruction's bytes, N the opcode's (R70, R73, R75). -/
theorem decode_eq_ok_iff {f : Fetched} {i : Instr} :
    decode f = .ok i ↔ f.ir = i.opcode ∧ i.operands = [f.a, f.b].take (operandCount f.ir) := by
  refine ⟨decode_ok, fun ⟨hir, hops⟩ => ?_⟩
  have h := decode_of_opcode i f.a f.b (hir ▸ hops)
  rwa [← hir] at h

/-- A window of an instruction's opcode and two bytes that begin with its operand bytes decodes to it (R75). -/
theorem decode_of_operands (i : Instr) {a b : Byte} (h : i.operands = [a, b].take i.operands.length) :
    decode ⟨i.opcode, a, b⟩ = .ok i :=
  decode_eq_ok_iff.mpr ⟨rfl, (operandCount_opcode i).symm ▸ h⟩

/-- Windows with one opcode byte, alike in its first N operand bytes, decode to the same instruction (R74). -/
theorem decode_ok_of_operands_alike {f g : Fetched} {i : Instr} (h : decode f = .ok i) (hir : g.ir = f.ir)
    (alike : [g.a, g.b].take (operandCount f.ir) = [f.a, f.b].take (operandCount f.ir)) : decode g = .ok i := by
  obtain ⟨hop, hops⟩ := decode_ok h
  exact decode_eq_ok_iff.mpr ⟨hir.trans hop, by rw [hir, alike, hops]⟩

/-! ### The window over an encoding -/

/-- An instruction has at most two operand bytes (R70). -/
theorem Instr.operands_length_le (i : Instr) : i.operands.length ≤ 2 :=
  operandCount_opcode i ▸ Machine.operandCount_opcode_le i

/-- The first bytes of a window's operand bytes are the operands written after the opcode, if they are at most two. -/
theorem Fetched.ofBytes_operands (op : Byte) {ops : List Byte} (rest : List Byte) (le : ops.length ≤ 2) :
    [(Fetched.ofBytes (op :: ops ++ rest)).a, (Fetched.ofBytes (op :: ops ++ rest)).b].take ops.length = ops := by
  match ops, le with
  | [], _ => rfl
  | [_], _ => rfl
  | [_, _], _ => rfl

/-- Settles O2: the window over an encoding begins with the instruction's bytes, whatever follows. -/
theorem decodeOfEncodeGivesInstruction : Obligations.DecodeOfEncodeGivesInstruction := by
  intro i rest
  have ops := Fetched.ofBytes_operands i.opcode rest i.operands_length_le
  exact decode_of_operands i ops.symm

/-- Settles O3: opcode and operands of a decoded instruction are the window's own bytes. -/
theorem encodeOfDecodeGivesFetchedBytes : Obligations.EncodeOfDecodeGivesFetchedBytes := by
  intro f i h
  obtain ⟨hop, hops⟩ := decode_ok h
  rw [← operandCount_eq, Nat.add_comm, List.take_succ_cons, ← hops, hop, encode]

/-- Settles O4: with N at most 1, or 0, the windows agree in the first N operand bytes. -/
theorem overReadBytesDoNotMatter : Obligations.OverReadBytesDoNotMatter := by
  intro f i x y h
  rw [← operandCount_eq]
  constructor <;> intro few <;> refine decode_ok_of_operands_alike h rfl ?_
  · rcases Nat.le_one_iff_eq_zero_or_eq_one.mp few with n0 | n1
    · simp [n0]
    · simp [n1]
  · simp [few]

/-- Settles O1: each row's window holds its instruction's bytes, the columns are computed, and a byte that decodes is an
instruction's opcode. -/
theorem opcodeMapIsExactlyEleven : Obligations.OpcodeMapIsExactlyEleven := by
  refine ⟨fun x y => ?_, by decide, fun f i h => ?_⟩
  · exact ⟨decode_of_operands .hlt rfl, decode_of_operands (.ldi x y) rfl, decode_of_operands (.prn x) rfl,
      decode_of_operands (.add x y) rfl, decode_of_operands (.mul x y) rfl, decode_of_operands (.push x) rfl,
      decode_of_operands (.pop x) rfl, decode_of_operands (.cmp x y) rfl, decode_of_operands (.jeq x) rfl,
      decode_of_operands (.jmp x) rfl, decode_of_operands (.jne x) rfl⟩
  · rw [(decode_ok h).1]
    exact i.opcode_mem

end Sys2Proof
end

section
/-! PROOFS of the family 40_execution_loop.md, the loop: what a step answers at each of its ends, and that a stopped core stays
stopped. -/

namespace Sys2Proof.Machine

/-- The advance, N written as the byte's top two bits (R72, R94). -/
theorem advance_eq (s : State) (ir : Byte) :
    s.advance ir = { s with pc := BitVec.ofNat 9 (s.pc.toNat + 1 + ir.toNat / 64) } := by
  rw [State.advance, operandCount_eq]

/-! ### A step at each of its ends -/

/-- An enabled step above the fetch bound raises OutOfBoundsAccess, `pc` kept (R92). -/
theorem step_fetch_fault {s : State} (en : s.enabled = true) (hpc : 253 < s.pc.toNat) :
    step s = .next (s.latch .outOfBoundsAccess) := by
  simp [step, en, fetch_outside hpc, raise]

/-- An enabled step at an undefined opcode raises its kind past the byte's length (R77). -/
theorem step_decode_fault {s : State} {e : DecodeError} (en : s.enabled = true) (hpc : s.pc.toNat ≤ 253)
    (hd : decode ⟨s.mem.read s.pc.toNat, s.mem.read (s.pc.toNat + 1), s.mem.read (s.pc.toNat + 2)⟩ = .error e) :
    step s = .next ((s.advance (s.mem.read s.pc.toNat)).latch (decodeFault e)) := by
  simp [step, en, fetch_inside hpc, hd, raise]

/-- A core with no step enabled answers as `stopped` says (R90). -/
theorem step_disabled {s : State} (dis : s.enabled = false) : step s = stopped s := by
  simp [step, dis]

/-- A core with no step enabled and no fault steps to itself (R90, R98). -/
theorem step_disabled_nofault {s : State} (dis : s.enabled = false) (nofault : s.fault = none) : step s = .next s := by
  rw [step_disabled dis, stopped, nofault]

/-- A core with its latch set stops with the latched kind (R90, R150). -/
theorem step_faulted {s : State} {k : Fault} (hfault : s.fault = some k) : step s = .fault k := by
  rw [step_disabled (by simp [State.enabled, hfault]), stopped, hfault]

/-- Every instruction answers a next state (R90, R158). -/
theorem exec_answers_next (i : Instr) (s : State) : ∃ t, exec i s = .next t := by
  rcases exec_cases i s with ⟨t, e, -⟩ | ⟨e, -⟩
  · exact ⟨t, e⟩
  · exact ⟨_, e⟩

/-- Settles O6: a fetch fault, an undefined opcode and an instruction each answer a next state. -/
theorem enabledStepAnswersNext : Obligations.EnabledStepAnswersNext := by
  intro s hrun hfault
  have en : s.enabled = true := s.enabled_iff.mpr ⟨hrun, hfault⟩
  rcases Nat.lt_or_ge 253 s.pc.toNat with above | inside
  · exact ⟨_, step_fetch_fault en above⟩
  · cases hd : decode ⟨s.mem.read s.pc.toNat, s.mem.read (s.pc.toNat + 1), s.mem.read (s.pc.toNat + 2)⟩ with
    | error e => exact ⟨_, step_decode_fault en inside hd⟩
    | ok i =>
      rw [step_eq_exec en inside hd]
      exact exec_answers_next i _

/-- Settles O7: the halted state by induction on the number of steps, the faulted one at its first step. -/
theorem stoppedCoreStaysStopped : Obligations.StoppedCoreStaysStopped := by
  constructor
  · intro s n hrun nofault
    induction n with
    | zero => rfl
    | succ n ih =>
      have stays : step s = .next s := step_disabled_nofault (by simp [State.enabled, hrun]) nofault
      rw [core_run_succ, stays]
      exact ih
  · intro s n k hfault
    rw [core_run_succ, step_faulted hfault]

/-- Settles O5: the advance is the new `pc` the statement writes out. -/
theorem stepRunsDecodedInstruction : Obligations.StepRunsDecodedInstruction := by
  intro s i hrun hfault hpc hd
  rw [step_eq_exec (s.enabled_iff.mpr ⟨hrun, hfault⟩) hpc hd, advance_eq]

/-- Settles O8. -/
theorem fetchAbove253Raises : Obligations.FetchAbove253Raises :=
  fun s hrun hfault above => step_fetch_fault (s.enabled_iff.mpr ⟨hrun, hfault⟩) above

end Sys2Proof.Machine
end

section
/-! PROOFS of the family 40_execution_loop.md, `pc`: the branch dispatcher, the pc_mux, and that of FL only bit 0 reaches
control flow. -/

namespace Sys2Proof.Machine

/-! ### The branch dispatcher -/

/-- When a jump is taken (R97). -/
theorem branchTaken_iff (ir fl : Byte) : branchTaken ir fl = true ↔
    ir = opJmp ∨ (ir = opJeq ∧ equalFlag fl = true) ∨ (ir = opJne ∧ equalFlag fl = false) := by
  unfold branchTaken
  split_ifs with jmp jeq jne
  · simp [jmp]
  · simp [jeq, opJmp, opJeq, opJne]
  · simp [jne, opJmp, opJeq, opJne]
  · simp [jmp, jeq, jne]

/-- The three jump opcodes are the only bytes at which a branch is taken (R97). -/
theorem branchTaken_mem {ir fl : Byte} (h : branchTaken ir fl = true) : ir ∈ [opJmp, opJeq, opJne] := by
  rcases (branchTaken_iff ir fl).mp h with rfl | ⟨rfl, -⟩ | ⟨rfl, -⟩ <;> simp

/-- A byte at which a branch is taken has one operand (R75). -/
theorem operandCount_of_branchTaken {ir fl : Byte} (h : branchTaken ir fl = true) : operandCount ir = 1 := by
  rcases (branchTaken_iff ir fl).mp h with rfl | ⟨rfl, -⟩ | ⟨rfl, -⟩ <;> simp

/-- The dispatcher reads E alone (R97). -/
theorem branchTaken_congr (ir : Byte) {fl fl' : Byte} (h : equalFlag fl = equalFlag fl') :
    branchTaken ir fl = branchTaken ir fl' := by
  rw [Bool.eq_iff_iff, branchTaken_iff, branchTaken_iff, h]

/-! ### The pc_mux -/

/-- The byte after an opcode with one operand is that operand (R73). -/
theorem decode_single_operand {f : Fetched} {i : Instr} {x : Byte} (h : decode f = .ok i) (ops : i.operands = [x]) :
    f.a = x := by
  have taken : [f.a, f.b].take (operandCount f.ir) = [x] := (decode_ok h).2.symm.trans ops
  cases n : operandCount f.ir with
  | zero =>
    rw [n] at taken
    cases taken
  | succ k =>
    rw [n] at taken
    exact (List.cons.inj taken).1

/-- The pc_mux for an effect: a taken jump goes to the register its one operand names, everything else leaves `pc` (R96). -/
theorem Effect.pc_mux {s t : State} {i : Instr} (h : Effect s i t) :
    (branchTaken i.opcode s.fl = false ∧ t.pc = s.pc) ∨
      ∃ r : Fin 8, branchTaken i.opcode s.fl = true ∧ i.operands = [regByte r] ∧ t.pc = (s.jumpTo (s.reg r)).pc := by
  cases h
  case jmp r ha => exact .inr ⟨r, rfl, by rw [ha, Instr.operands], rfl⟩
  case jeqTaken r ha he => exact .inr ⟨r, he, by rw [ha, Instr.operands], rfl⟩
  case jneTaken r ha he => exact .inr ⟨r, by simp [Instr.opcode, he], by rw [ha, Instr.operands], rfl⟩
  case jeqNot he => exact .inl ⟨he, rfl⟩
  case jneNot he => exact .inl ⟨by simp [Instr.opcode, he], rfl⟩
  all_goals exact .inl ⟨rfl, rfl⟩

/-- The pc_mux for an enabled step inside the fetch bound: `pc` is the advanced one, and then the step faults or no branch is
taken, or a branch is taken and `pc` is the register the operand byte names (R94, R96). -/
theorem step_pc_mux {s t : State} (en : s.enabled = true) (hpc : s.pc.toNat ≤ 253) (h : step s = .next t) :
    (t.pc = (s.advance (s.mem.read s.pc.toNat)).pc ∧
        (t.fault = none → branchTaken (s.mem.read s.pc.toNat) s.fl = false)) ∨
      ∃ r : Fin 8, branchTaken (s.mem.read s.pc.toNat) s.fl = true ∧ s.mem.read (s.pc.toNat + 1) = regByte r ∧
        t.pc = (s.jumpTo (s.reg r)).pc := by
  cases hd : decode ⟨s.mem.read s.pc.toNat, s.mem.read (s.pc.toNat + 1), s.mem.read (s.pc.toNat + 2)⟩ with
  | error e =>
    obtain rfl := Host.Outcome.next.inj ((step_decode_fault en hpc hd).symm.trans h)
    exact .inl ⟨rfl, nofun⟩
  | ok i =>
    have hop : s.mem.read s.pc.toNat = i.opcode := (decode_ok hd).1
    rw [step_eq_exec en hpc hd] at h
    rcases exec_next h with eff | ⟨rfl, -⟩
    · rcases eff.pc_mux with ⟨free, e⟩ | ⟨r, taken, ops, e⟩
      · exact .inl ⟨e, fun _ => hop ▸ free⟩
      · exact .inr ⟨r, hop ▸ taken, decode_single_operand hd ops, e⟩
    · exact .inl ⟨rfl, nofun⟩

/-- An enabled step where no branch is taken leaves `pc` past the byte's length (R94, R96). -/
theorem step_pc_of_not_taken {s t : State} (en : s.enabled = true) (hpc : s.pc.toNat ≤ 253) (h : step s = .next t)
    (free : ¬ branchTaken (s.mem.read s.pc.toNat) s.fl = true) :
    t.pc.toNat = s.pc.toNat + 1 + operandCount (s.mem.read s.pc.toNat) := by
  rcases step_pc_mux en hpc h with ⟨e, -⟩ | ⟨-, taken, -⟩
  · rw [e, advance_pc_toNat hpc]
  · exact absurd taken free

/-- An enabled step that raises no fault fetched inside its bound (R92). -/
theorem pc_le_of_step_nofault {s t : State} (en : s.enabled = true) (h : step s = .next t) (nofault : t.fault = none) :
    s.pc.toNat ≤ 253 := by
  by_contra above
  obtain rfl := Host.Outcome.next.inj ((step_fetch_fault en (Nat.lt_of_not_le above)).symm.trans h)
  cases nofault

/-- Settles O35: the two inputs of the pc_mux. -/
theorem pcMuxSelectsNextPc : Obligations.PcMuxSelectsNextPc := by
  intro s t hrun hfault h nofault
  have en : s.enabled = true := s.enabled_iff.mpr ⟨hrun, hfault⟩
  have hpc := pc_le_of_step_nofault en h nofault
  have dispatch := branchTaken_iff (s.mem.read s.pc.toNat) s.fl
  constructor
  · intro jump
    have taken := dispatch.mpr jump
    rcases step_pc_mux en hpc h with ⟨-, free⟩ | ⟨r, -, ha, e⟩
    · exact absurd (taken.symm.trans (free nofault)) nofun
    · exact ⟨r, by rw [ha, regByte_toNat], by rw [e, State.jumpTo_pc_toNat]⟩
  · intro nojump
    rw [← operandCount_eq]
    exact step_pc_of_not_taken en hpc h fun taken => nojump (dispatch.mp taken)

/-- Settles O36: a byte that is no jump opcode, or has N = 2, takes no branch. -/
theorem advanceAddsLengthToPc : Obligations.AdvanceAddsLengthToPc := by
  intro s hpc
  refine ⟨fun ir => ?_, fun t hrun hfault h => ?_⟩
  · have le := operandCount_le ir
    rw [advance_pc_toNat hpc, ← operandCount_eq]
    omega
  · have en : s.enabled = true := s.enabled_iff.mpr ⟨hrun, hfault⟩
    rw [← operandCount_eq]
    refine ⟨fun nojump => ?_, fun two => ?_, fun above trun tfault => ?_⟩
    · exact step_pc_of_not_taken en hpc h fun taken => nojump (branchTaken_mem taken)
    · have e := step_pc_of_not_taken en hpc h fun taken => by simp [operandCount_of_branchTaken taken] at two
      rw [e, two]
    · exact ⟨_, step_fetch_fault (t.enabled_iff.mpr ⟨trun, tfault⟩) above, rfl⟩

/-! ### G and L do not reach control flow -/

/-- Two states that differ in FL, but not in E, are written alike by an instruction (R97). -/
theorem exec_writes_alike_of_equalFlag (i : Instr) (s : State) {v : Byte} (hv : equalFlag v = equalFlag s.fl) :
    ∃ w : Writes, exec i s = .next (w.applyTo s) ∧
      exec i (s.setFlags v) = .next (w.applyTo (s.setFlags v)) := by
  rcases exec_writesFixed_or_jump i s with ⟨w, hw⟩ | ⟨ir, a, jump⟩
  · exact ⟨w, hw s rfl rfl, hw _ rfl rfl⟩
  · obtain ⟨w, hw⟩ := writesFixed_jumpWhen s (branchTaken ir s.fl) a
    refine ⟨w, by rw [jump, hw s rfl rfl], ?_⟩
    rw [jump, State.setFlags_fl, branchTaken_congr ir hv, hw (s.setFlags v) rfl rfl]

/-- With another FL of the same E, an instruction answers the same `pc` and fault latch (R97). -/
theorem exec_control_of_equalFlag {i : Instr} {s t : State} {v : Byte} (hv : equalFlag v = equalFlag s.fl)
    (h : exec i s = .next t) : ∃ u, exec i (s.setFlags v) = .next u ∧ u.pc = t.pc ∧ u.fault = t.fault := by
  obtain ⟨w, hs, hs'⟩ := exec_writes_alike_of_equalFlag i s hv
  obtain rfl := Host.Outcome.next.inj (hs.symm.trans h)
  exact ⟨_, hs', rfl, rfl⟩

/-- With another FL of the same E, a step answers the same `pc` and fault latch (R97). -/
theorem step_control_of_equalFlag {s t : State} {v : Byte} (hv : equalFlag v = equalFlag s.fl) (h : step s = .next t) :
    ∃ u, step (s.setFlags v) = .next u ∧ u.pc = t.pc ∧ u.fault = t.fault := by
  rcases step_next h with ⟨en, above, rfl⟩ | ⟨f, i, en, hf, hd, he⟩ | ⟨f, e, en, hf, hd, rfl⟩ | ⟨dis, nofault, rfl⟩
  · exact ⟨_, step_fetch_fault (s := s.setFlags v) en above, rfl, rfl⟩
  · obtain ⟨hpc, rfl⟩ := fetch_some hf
    obtain ⟨u, hu, same⟩ := exec_control_of_equalFlag (s := s.advance _) hv he
    exact ⟨u, (step_eq_exec (s := s.setFlags v) en hpc hd).trans hu, same⟩
  · obtain ⟨hpc, rfl⟩ := fetch_some hf
    exact ⟨_, step_decode_fault (s := s.setFlags v) en hpc hd, rfl, rfl⟩
  · exact ⟨_, step_disabled_nofault (s := t.setFlags v) dis nofault, rfl, rfl⟩

/-- Settles O37: the dispatcher's table, and that FL reaches `pc` through the dispatcher only. -/
theorem branchDependsOnEqualBitOnly : Obligations.BranchDependsOnEqualBitOnly :=
  ⟨branchTaken_iff, fun _ _ _ => step_control_of_equalFlag⟩

end Sys2Proof.Machine
end

section
/-! PROOFS of the family 40_execution_loop.md, the placing of a word: bytes stored in a row are read back, so the next step
fetches them. -/

namespace Sys2Proof.Machine

/-! ### Bytes stored in a row -/

/-- Storing bytes in a row changes nothing but memory (R182). -/
theorem installFrom_changes_only_mem (addr : Nat) (bytes : List Byte) (s : State) :
    installFrom addr bytes s = { s with mem := (installFrom addr bytes s).mem } := by
  induction bytes generalizing addr s with
  | nil => rfl
  | cons v rest ih =>
    rw [installFrom, ih]
    rfl

/-- Storing bytes in a row leaves every address below the first alone. -/
theorem installFrom_read_below (bytes : List Byte) (s : State) {addr a : Nat} (lt : a < addr) :
    (installFrom addr bytes s).mem.read a = s.mem.read a := by
  induction bytes generalizing addr s with
  | nil => rfl
  | cons v rest ih => rw [installFrom, ih _ (by omega), State.read_poke_other s v (by omega)]

/-- The k-th of the bytes stored in a row is read back k past the first address, if all lie in memory (R182). -/
theorem installFrom_read {bytes : List Byte} {s : State} {addr : Nat} (wf : s.mem.wf = true)
    (fits : addr + bytes.length ≤ Config.memSize) {k : Nat} (hk : k < bytes.length) :
    (installFrom addr bytes s).mem.read (addr + k) = bytes[k] := by
  induction bytes generalizing addr s k with
  | nil => cases hk
  | cons v rest ih =>
    rw [List.length_cons] at fits hk
    cases k with
    | zero =>
      rw [installFrom, installFrom_read_below rest _ (by omega)]
      exact State.read_poke_same wf v (by omega)
    | succ k =>
      have read := ih (Memory.wf_poke wf addr v) (show addr + 1 + rest.length ≤ _ by omega) (Nat.lt_of_succ_lt_succ hk)
      rwa [Nat.add_right_comm] at read

/-! ### The placed word -/

/-- A table word is an instruction when the window over its bytes decodes to it. -/
theorem decodeTableWord_eq_some {nbits w : Nat} {i : Instr} (h : decodeTableWord nbits w = some i) :
    decode (Fetched.ofBytes (tableBytes nbits w)) = .ok i := by
  unfold decodeTableWord at h
  split at h
  · rw [‹decode _ = _›, Option.some.inj h]
  · cases h

/-- Placing a word changes nothing but memory. -/
theorem withFetchWord_changes_only_mem (s : State) (nbits w : Nat) :
    s.withFetchWord nbits w = { s with mem := (s.withFetchWord nbits w).mem } :=
  installFrom_changes_only_mem _ _ s

/-- Placing a word leaves `pc` where it was. -/
theorem withFetchWord_pc (s : State) (nbits w : Nat) : (s.withFetchWord nbits w).pc = s.pc := by
  rw [withFetchWord_changes_only_mem]

/-- Placing a word leaves the core enabled or not, as it was. -/
theorem withFetchWord_enabled (s : State) (nbits w : Nat) : (s.withFetchWord nbits w).enabled = s.enabled := by
  rw [withFetchWord_changes_only_mem]
  rfl

/-- The fetch after placing a word is the window over its bytes (R91, R92). -/
theorem fetch_withFetchWord {s : State} (wf : s.mem.wf = true) (hpc : s.pc.toNat ≤ 253) (nbits w : Nat) :
    fetch (s.withFetchWord nbits w) = some (Fetched.ofBytes (tableBytes nbits w)) := by
  have fits : s.pc.toNat + (tableBytes nbits w).length ≤ Config.memSize := show s.pc.toNat + 3 ≤ 256 by omega
  have byte (k : Nat) (hk : k < (tableBytes nbits w).length) :
      (s.withFetchWord nbits w).mem.read (s.pc.toNat + k) = (tableBytes nbits w)[k] :=
    installFrom_read wf fits hk
  have hpc' : (s.withFetchWord nbits w).pc.toNat ≤ 253 := by rwa [withFetchWord_pc]
  rw [fetch_inside hpc', withFetchWord_pc]
  have b0 := byte 0 (by simp [tableBytes])
  have b1 := byte 1 (by simp [tableBytes])
  have b2 := byte 2 (by simp [tableBytes])
  rw [Nat.add_zero] at b0
  rw [b0, b1, b2]
  rfl

/-- Settles O50: the placed bytes are fetched, and decode to the word's instruction. -/
theorem placedWordIsNextInstruction : Obligations.PlacedWordIsNextInstruction := by
  intro s nbits w i hrun hfault wf hpc hw
  refine ⟨?_, withFetchWord_changes_only_mem s nbits w⟩
  have hd := decodeTableWord_eq_some hw
  have en : (s.withFetchWord nbits w).enabled = true :=
    (withFetchWord_enabled s nbits w).trans (s.enabled_iff.mpr ⟨hrun, hfault⟩)
  have hop : (Fetched.ofBytes (tableBytes nbits w)).ir = i.opcode := (decode_ok hd).1
  simp only [step, en, if_true, fetch_withFetchWord wf hpc, hd, hop]

end Sys2Proof.Machine
end

section
/-! PROOFS of the family 41_alu.md, what the shared operations answer: two register operands, the two arithmetic results, the
compare's byte and the jump. -/

namespace Sys2Proof.Machine

/-! ### Two register operands (R110) -/

/-- Two operands that name registers hand both on. -/
@[simp] theorem withRegisters_regByte (i j : Fin 8) (s : State) (use : Fin 8 → Fin 8 → Result) :
    withRegisters (regByte i) (regByte j) s use = use i j := by
  simp [withRegisters]

/-- Two operands of which one is above 7 raise OutOfBoundsAccess, whatever their use (R23, R110). -/
theorem withRegisters_above {a b : Byte} (h : 7 < a.toNat ∨ 7 < b.toNat) (s : State) (use : Fin 8 → Fin 8 → Result) :
    withRegisters a b s use = raise .outOfBoundsAccess s := by
  rcases withRegisters_cases a b s use with ⟨i, j, rfl, rfl, -⟩ | ⟨-, e⟩
  · have hi := i.isLt
    have hj := j.isLt
    simp only [regByte_toNat] at h
    omega
  · exact e

/-! ### ADD and MUL -/

/-- A byte made of a number is made of the number modulo 256 (R115). -/
theorem ofNat_mod_256 (n : Nat) : BitVec.ofNat 8 (n % 256) = BitVec.ofNat 8 n :=
  BitVec.eq_of_toNat_eq (by simp)

/-- ADD of two registers writes their sum to the first (R111). -/
theorem exec_add_regByte (i j : Fin 8) (s : State) :
    exec (.add (regByte i) (regByte j)) s = .next (s.setReg i (aluAdd (s.reg i) (s.reg j))) :=
  withRegisters_regByte i j s _

/-- MUL of two registers writes their product to the first (R112). -/
theorem exec_mul_regByte (i j : Fin 8) (s : State) :
    exec (.mul (regByte i) (regByte j)) s = .next (s.setReg i (aluMul (s.reg i) (s.reg j))) :=
  withRegisters_regByte i j s _

/-! ### CMP -/

/-- CMP of two registers writes the compare's byte (R113). -/
theorem exec_cmp_regByte (i j : Fin 8) (s : State) :
    exec (.cmp (regByte i) (regByte j)) s = .next (s.setFlags (compareFlags (s.reg i) (s.reg j))) :=
  withRegisters_regByte i j s _

/-- Equal values leave E (R113). -/
theorem compareFlags_of_eq {u v : Byte} (h : u.toNat = v.toNat) : compareFlags u v = flagE := by
  simp [compareFlags, h]

/-- A smaller first value leaves L (R113). -/
theorem compareFlags_of_lt {u v : Byte} (h : u.toNat < v.toNat) : compareFlags u v = flagL := by
  simp [compareFlags, h, h.ne]

/-- A greater first value leaves G (R113). -/
theorem compareFlags_of_gt {u v : Byte} (h : v.toNat < u.toNat) : compareFlags u v = flagG := by
  simp [compareFlags, h.ne', h.not_gt]

/-- The compare's byte has E exactly when the values are equal (R116). -/
theorem equalFlag_compareFlags (u v : Byte) : equalFlag (compareFlags u v) = decide (u = v) := by
  rcases compareFlags_cases u v with ⟨rfl, e⟩ | ⟨lt, e⟩ | ⟨gt, e⟩ <;> rw [e]
  · exact (decide_eq_true rfl).symm
  · exact (decide_eq_false fun h => lt.ne (congrArg BitVec.toNat h)).symm
  · exact (decide_eq_false fun h => gt.ne' (congrArg BitVec.toNat h)).symm

/-! ### JEQ and JNE on a register -/

/-- A jump's target is the register's value as a 9-bit word (R96). -/
theorem State.jumpTo_eq (s : State) (target : Byte) : s.jumpTo target = { s with pc := BitVec.ofNat 9 target.toNat } := by
  rw [State.jumpTo, BitVec.ofNat_toNat]

/-- A taken jump on a register goes to its value (R96). -/
theorem jumpWhen_true_regByte (k : Fin 8) (s : State) :
    jumpWhen true (regByte k) s = .next { s with pc := BitVec.ofNat 9 (s.reg k).toNat } := by
  rw [← State.jumpTo_eq]
  exact withRegister_regByte k s _

/-- A jump not taken changes nothing (R142, R143). -/
theorem jumpWhen_false (a : Byte) (s : State) : jumpWhen false a s = .next s := rfl

/-- JEQ jumps when E is set (R142). -/
theorem exec_jeq (a : Byte) (s : State) : exec (.jeq a) s = jumpWhen (equalFlag s.fl) a s := rfl

/-- JNE jumps when E is clear (R143). -/
theorem exec_jne (a : Byte) (s : State) : exec (.jne a) s = jumpWhen (!equalFlag s.fl) a s := rfl

end Sys2Proof.Machine
end

section
/-! PROOFS of the family 41_alu.md, the statements. -/

namespace Sys2Proof.Machine

/-- Settles O38: the compare's E bit is the registers' equality, and both jumps are decided by it. -/
theorem compareThenExactlyOneJumpTaken : Obligations.CompareThenExactlyOneJumpTaken := by
  intro i j k s
  refine ⟨_, exec_cmp_regByte i j s, fun eq => ?_, fun ne => ?_⟩
  · have e : equalFlag (compareFlags (s.reg i) (s.reg j)) = true := by simp [equalFlag_compareFlags, eq]
    rw [exec_jeq, exec_jne, State.setFlags_fl, e]
    exact ⟨jumpWhen_true_regByte k _, jumpWhen_false _ _⟩
  · have e : equalFlag (compareFlags (s.reg i) (s.reg j)) = false := by simp [equalFlag_compareFlags, ne]
    rw [exec_jeq, exec_jne, State.setFlags_fl, e]
    exact ⟨jumpWhen_false _ _, jumpWhen_true_regByte k _⟩

/-- Settles O11: the sum with two registers, the raise with an index above 7. -/
theorem addResult : Obligations.AddResult := by
  intro a b s
  refine ⟨decode_of_operands (.add a b) rfl, fun i j ha hb => ?_, fun above => withRegisters_above above s _⟩
  rw [eq_regByte ha, eq_regByte hb, exec_add_regByte, ofNat_mod_256]
  rfl

/-- Settles O12: the product with two registers, the raise with an index above 7. -/
theorem mulResult : Obligations.MulResult := by
  intro a b s
  refine ⟨decode_of_operands (.mul a b) rfl, fun i j ha hb => ?_, fun above => withRegisters_above above s _⟩
  rw [eq_regByte ha, eq_regByte hb, exec_mul_regByte, ofNat_mod_256]
  rfl

/-- Settles O13: one flag for each of the three unsigned relations, the raise with an index above 7. -/
theorem cmpResult : Obligations.CmpResult := by
  intro a b s
  refine ⟨decode_of_operands (.cmp a b) rfl, fun i j ha hb => ?_, fun above => withRegisters_above above s _⟩
  rw [eq_regByte ha, eq_regByte hb, exec_cmp_regByte]
  refine ⟨fun eq => ?_, fun lt => ?_, fun gt => ?_⟩
  · rw [compareFlags_of_eq eq]
    rfl
  · rw [compareFlags_of_lt lt]
    rfl
  · rw [compareFlags_of_gt gt]
    rfl

end Sys2Proof.Machine
end

section
/-! PROOFS of the family 42_load_print_halt.md: what LDI, PRN and HLT answer, what PRN and HLT leave alone, and that only PRN
writes the output log. -/

namespace Sys2Proof.Machine

/-! ### The output log -/

/-- An effect writes OUT only for PRN, and then it appends the value of the register the operand names (R39, R123). -/
theorem Effect.out_cases {s t : State} {i : Instr} (h : Effect s i t) :
    t.out = s.out ∨ ∃ r : Fin 8, i = .prn (regByte r) ∧ t.out = s.out ++ [s.reg r] := by
  cases h
  case prn r ha => exact .inr ⟨r, by rw [ha], rfl⟩
  all_goals exact .inl rfl

/-- Settles O30: the one effect that writes OUT is PRN's, and the decoded operand is the byte after the opcode. -/
theorem onlyPrnWritesOutput : Obligations.OnlyPrnWritesOutput := by
  intro s t h
  rcases step_next h with ⟨-, -, rfl⟩ | ⟨f, i, -, hf, hd, he⟩ | ⟨f, e, -, -, -, rfl⟩ | ⟨-, -, rfl⟩
  · exact .inl rfl
  · obtain ⟨-, rfl⟩ := fetch_some hf
    rcases exec_next he with eff | ⟨rfl, -⟩
    · rcases eff.out_cases with e | ⟨r, rfl, e⟩
      · exact .inl e
      · have operand : s.mem.read (s.pc.toNat + 1) = regByte r := decode_single_operand hd rfl
        exact .inr ⟨(decode_ok hd).1, r, by rw [operand, regByte_toNat], e⟩
    · exact .inl rfl
  · exact .inl rfl
  · exact .inl rfl

/-! ### The frame of PRN and HLT -/

/-- Settles O24: PRN appends to OUT or raises, HLT sets RUN, and each leaves the rest alone. -/
theorem frameOfPrnHlt : Obligations.FrameOfPrnHlt := by
  intro a s t i hi h
  simp only [List.mem_cons, List.not_mem_nil, or_false] at hi
  rcases exec_next h with eff | ⟨rfl, bad⟩
  · rcases hi with rfl | rfl
    · cases eff with
      | prn r ha => exact ⟨fun _ => rfl, rfl, rfl, fun _ => rfl, nofun, fun _ => rfl, fun _ => rfl⟩
    · cases eff with
      | hlt => exact ⟨fun _ => rfl, rfl, rfl, nofun, fun _ => rfl, fun _ => rfl, fun _ => rfl⟩
  · exact ⟨fun _ => rfl, rfl, rfl, fun _ => rfl, fun _ => rfl, fun good => absurd (good.symm.trans bad) nofun, fun _ => rfl⟩

/-! ### What each instruction answers -/

/-- An enabled step at a HLT byte halts the core past that one byte (R98, R120). -/
theorem step_at_hlt {s : State} (en : s.enabled = true) (hpc : s.pc.toNat ≤ 253) (hop : s.mem.read s.pc.toNat = opHlt) :
    step s = .next (s.advance opHlt).halt := by
  have hd : decode ⟨s.mem.read s.pc.toNat, s.mem.read (s.pc.toNat + 1), s.mem.read (s.pc.toNat + 2)⟩ = .ok .hlt :=
    hop ▸ decode_of_operands .hlt rfl
  rw [step_eq_exec en hpc hd, hop]
  rfl

/-- A halted core has no step enabled (R90). -/
@[simp] theorem State.halt_enabled (s : State) : s.halt.enabled = false := rfl

/-- Settles O14: HLT has no operand, so its step advances `pc` by its opcode byte alone. -/
theorem hltResult : Obligations.HltResult := by
  refine ⟨fun _ => rfl, fun s hrun hfault hpc hop => ?_⟩
  exact ⟨_, step_at_hlt (s.enabled_iff.mpr ⟨hrun, hfault⟩) hpc hop, rfl, State.halt_enabled _⟩

/-- Settles O15: the literal with a register, the raise with an index above 7. -/
theorem ldiResult : Obligations.LdiResult := by
  intro a v s
  refine ⟨decode_of_operands (.ldi a v) rfl, fun i ha => ?_, fun above => withRegister_above above s _⟩
  rw [eq_regByte ha]
  exact withRegister_regByte i s _

/-- Settles O16: the value appended with a register, the raise with an index above 7. -/
theorem prnResult : Obligations.PrnResult := by
  intro a s
  refine ⟨fun i ha => ?_, fun above => withRegister_above above s _⟩
  rw [eq_regByte ha]
  exact withRegister_regByte i s _

end Sys2Proof.Machine
end

section
/-! PROOFS of the family 43_stack.md, the facts: what PUSH and POP answer, what the two leave in each register and in memory, and
what a POP finds after a PUSH. -/

namespace Sys2Proof.Machine

/-- The byte of a register is not above 7 (R23). -/
theorem regByte_toNat_le (i : Fin 8) : (regByte i).toNat ≤ 7 := by
  rw [regByte_toNat]
  exact Nat.le_of_lt_succ i.isLt

/-! ### PUSH -/

/-- The state PUSH leaves, written out (R131). -/
theorem pushed_eq (i : Fin 8) (s : State) :
    pushed i s = { s with regs := s.regs.set 7 (s.reg 7 - 1#8)
                          mem := s.mem.write (s.reg 7 - 1#8).toNat (if i = 7 then s.reg 7 - 1#8 else s.reg i) } := by
  rw [pushed, State.poke, if_pos (stackAddress_lt _), stackAddress_preDecrement, preDecrement_reg]
  rfl

/-- PUSH lowers the stack pointer by 1 modulo 256 and leaves every other register (R131, R135). -/
theorem pushed_reg (i r : Fin 8) (s : State) :
    (pushed i s).reg r = if r = 7 then s.reg 7 - 1#8 else s.reg r :=
  preDecrement_reg r s

/-- PUSH leaves every byte but the one at the lowered stack pointer (R131, R135). -/
theorem pushed_read_other (i : Fin 8) (s : State) {addr : Nat} (ne : addr ≠ (s.reg 7 - 1#8).toNat) :
    (pushed i s).mem.read addr = s.mem.read addr := by
  rw [pushed_eq]
  exact Memory.read_write_other s.mem _ ne

/-- What PUSH answers: `pushed` for a register, a raise for an index above 7 (R131; decision D8). -/
theorem exec_push_next {a : Byte} {s t : State} (h : exec (.push a) s = .next t) :
    (∃ i : Fin 8, a = regByte i ∧ t = pushed i s) ∨ (7 < a.toNat ∧ t = s.latch .outOfBoundsAccess) := by
  rcases execPush_cases a s with ⟨i, ha, e⟩ | ⟨above, e⟩
  · exact .inl ⟨i, ha, Host.Outcome.next.inj (h.symm.trans e)⟩
  · exact .inr ⟨above, raise_next (e.symm.trans h)⟩

/-! ### POP -/

/-- The state POP leaves when its operand names a register (R132). -/
def popped (i : Fin 8) (s : State) : State :=
  postIncrement (s.setReg i (s.mem.read (s.reg 7).toNat))

/-- POP of a register leaves `popped`. -/
theorem exec_pop_regByte (i : Fin 8) (s : State) : exec (.pop (regByte i)) s = .next (popped i s) :=
  (withRegister_regByte i s _).trans (memRead_inside (stackAddress_lt s) s _)

/-- What POP answers: `popped` for a register, a raise for an index above 7 (R132; decision D8). -/
theorem exec_pop_next {a : Byte} {s t : State} (h : exec (.pop a) s = .next t) :
    (∃ i : Fin 8, a = regByte i ∧ t = popped i s) ∨ (7 < a.toNat ∧ t = s.latch .outOfBoundsAccess) := by
  rcases execPop_cases a s with ⟨i, ha, e⟩ | ⟨above, e⟩
  · exact .inl ⟨i, ha, Host.Outcome.next.inj (h.symm.trans e)⟩
  · exact .inr ⟨above, raise_next (e.symm.trans h)⟩

/-- POP changes the registers alone, its own and then the stack pointer, which for POP R7 holds the popped byte by then (R132;
decision D19). -/
theorem popped_eq (i : Fin 8) (s : State) :
    popped i s =
      { s with regs := (s.regs.set i (s.mem.read (s.reg 7).toNat)).set 7
                 ((if 7 = i then s.mem.read (s.reg 7).toNat else s.reg 7) + 1#8) } := by
  rw [← State.reg_setReg]
  rfl

/-- POP leaves the stack pointer 1 higher modulo 256, or the popped byte plus 1 for POP R7 (R132; decisions D17, D19). -/
theorem popped_reg_sp (i : Fin 8) (s : State) :
    (popped i s).reg 7 = (if 7 = i then s.mem.read (s.reg 7).toNat else s.reg 7) + 1#8 := by
  rw [← State.reg_setReg]
  exact State.reg_setReg_same _ 7 _

/-- POP writes the popped byte to its register and leaves every register but that one and the stack pointer (R132, R135). -/
theorem popped_reg {r : Fin 8} (hr : r ≠ 7) (i : Fin 8) (s : State) :
    (popped i s).reg r = if r = i then s.mem.read (s.reg 7).toNat else s.reg r :=
  (State.reg_setReg_other _ _ hr).trans (State.reg_setReg s i r _)

/-- A step at a POP of a register leaves `popped` past the two bytes. -/
theorem step_at_pop {s : State} {i : Fin 8} (en : s.enabled = true) (hpc : s.pc.toNat ≤ 253)
    (hop : s.mem.read s.pc.toNat = opPop) (ha : s.mem.read (s.pc.toNat + 1) = regByte i) :
    step s = .next (popped i (s.advance opPop)) := by
  have hd : decode ⟨opPop, regByte i, s.mem.read (s.pc.toNat + 2)⟩ = .ok (.pop (regByte i)) :=
    decode_of_operands (.pop (regByte i)) rfl
  rw [step_eq_exec en hpc (by rw [hop, ha]; exact hd), hop, exec_pop_regByte]

/-- POP leaves `pc` where it was. -/
@[simp] theorem popped_pc (i : Fin 8) (s : State) : (popped i s).pc = s.pc := rfl

/-- The advance changes none of what POP writes to the registers. -/
@[simp] theorem popped_advance_reg (i r : Fin 8) (s : State) (ir : Byte) :
    (popped i (s.advance ir)).reg r = (popped i s).reg r := rfl

/-! ### POP after PUSH -/

/-- The byte at the stack pointer after a PUSH is the byte it stored (R131). -/
theorem pushed_read_sp {s : State} (wf : s.mem.wf = true) (i : Fin 8) :
    (pushed i s).mem.read ((pushed i s).reg 7).toNat = if i = 7 then s.reg 7 - 1#8 else s.reg i := by
  rw [pushed_reg, if_pos rfl, pushed_read wf]

/-- POP after PUSH moves the stored byte into the popped register, and every other register is as before the PUSH (R133, R134). -/
theorem popped_pushed_reg {s : State} (wf : s.mem.wf = true) (i : Fin 8) {j : Fin 8} (hj : j ≠ 7) (r : Fin 8) :
    (popped j (pushed i s)).reg r = if r = j then (if i = 7 then s.reg 7 - 1#8 else s.reg i) else s.reg r := by
  by_cases hr : r = 7
  · subst hr
    rw [popped_reg_sp, if_neg hj.symm, if_neg hj.symm, pushed_reg, if_pos rfl, BitVec.sub_add_cancel]
  · rw [popped_reg hr, pushed_read_sp wf, pushed_reg, if_neg hr]

/-- The step after a PUSH runs the POP at `pc`, provided the PUSH stored to neither of the POP's two bytes (R133). -/
theorem step_pushed_at_pop {s : State} (en : s.enabled = true) (i : Fin 8) {j : Fin 8} (hpc : s.pc.toNat ≤ 253)
    (hop : s.mem.read s.pc.toNat = opPop) (ha : s.mem.read (s.pc.toNat + 1) = regByte j)
    (clear : (s.reg 7 - 1#8).toNat ≠ s.pc.toNat) (clear' : (s.reg 7 - 1#8).toNat ≠ s.pc.toNat + 1) :
    step (pushed i s) = .next (popped j ((pushed i s).advance opPop)) :=
  step_at_pop (s := pushed i s) en hpc ((pushed_read_other i s clear.symm).trans hop)
    ((pushed_read_other i s clear'.symm).trans ha)

end Sys2Proof.Machine
end

section
/-! PROOFS of the family 43_stack.md, the statements. -/

namespace Sys2Proof.Machine

/-- Settles O39: the PUSH does not reach the POP's two bytes, so the next step pops what it stored. -/
theorem pushThenPopRestores : Obligations.PushThenPopRestores := by
  intro s i j hi hj hrun hfault wf hpc hop ha hop' ha' clear clear'
  have en : s.enabled = true := s.enabled_iff.mpr ⟨hrun, hfault⟩
  have next : (s.advance opPush).pc.toNat = s.pc.toNat + 2 := by
    rw [advance_pc_toNat (by omega), operandCount_opPush]
  have pop : step (pushed i (s.advance opPush)) = .next (popped j ((pushed i (s.advance opPush)).advance opPop)) :=
    step_pushed_at_pop (s := s.advance opPush) en i (by omega) (by rwa [next]) (by rwa [next]) (by rwa [next]) (by rwa [next])
  have regs : ∀ r, (popped j ((pushed i (s.advance opPush)).advance opPop)).reg r = if r = j then s.reg i else s.reg r := by
    intro r
    rw [popped_advance_reg, popped_pushed_reg (s := s.advance opPush) wf i hj, if_neg hi]
    rfl
  refine ⟨_, _, step_at_push en (by omega) hop ha, pop, ?_, ?_, fun r hr => ?_, hfault, ?_⟩
  · rw [regs, if_pos rfl]
  · rw [regs, if_neg hj.symm]
  · rw [regs, if_neg hr]
  · rw [popped_pc, advance_pc_toNat (by rw [pushed_pc]; omega), pushed_pc, next, operandCount_opPop]

/-- Settles O40: POP R7 finds the lowered stack pointer and adds 1, another POP moves it into its register. -/
theorem pushSevenThenPop : Obligations.PushSevenThenPop := by
  intro s wf
  refine ⟨_, exec_push_regByte 7 s, ⟨_, exec_pop_regByte 7 _, ?_⟩, fun j hj => ⟨_, exec_pop_regByte j _, ?_, ?_⟩⟩
  · rw [popped_reg_sp, if_pos rfl, pushed_read_sp wf, if_pos rfl, BitVec.sub_add_cancel]
  · rw [popped_pushed_reg wf 7 hj, if_pos rfl, if_pos rfl]
  · rw [popped_pushed_reg wf 7 hj, if_neg hj.symm]

/-- Settles O26: a PUSH of a register writes the stack pointer and one byte, a raise neither. -/
theorem frameOfPush : Obligations.FrameOfPush := by
  intro a s t h
  rw [stackAddress_preDecrement]
  rcases exec_push_next h with ⟨i, rfl, rfl⟩ | ⟨above, rfl⟩
  · refine ⟨fun r hr => ?_, rfl, rfl, rfl, rfl, fun _ => rfl, fun addr => pushed_read_other i s, fun k hk wf => ?_,
      fun above => absurd (regByte_toNat_le i) above.not_ge⟩
    · rw [pushed_reg, if_neg hr]
    · obtain rfl : i = k := regByte_injective (eq_regByte hk)
      exact (pushed_read wf i).trans (pushed_reg i i s).symm
  · refine ⟨fun _ _ => rfl, rfl, rfl, rfl, rfl, fun le => absurd le above.not_ge, fun _ _ => rfl, fun k hk => ?_,
      fun _ => ⟨rfl, fun _ => rfl⟩⟩
    omega

/-- Settles O27: a POP of a register writes that register and the stack pointer, a raise neither. -/
theorem frameOfPop : Obligations.FrameOfPop := by
  intro a s t h
  rcases exec_pop_next h with ⟨i, rfl, rfl⟩ | ⟨above, rfl⟩
  · refine ⟨fun r hr ne => ?_, rfl, rfl, rfl, rfl, fun _ => rfl,
      fun above => absurd (regByte_toNat_le i) above.not_ge, fun _ => rfl⟩
    rw [popped_reg hr, if_neg]
    rintro rfl
    exact ne (regByte_toNat r).symm
  · exact ⟨fun _ _ _ => rfl, rfl, rfl, rfl, rfl, fun le => absurd le above.not_ge, fun _ => rfl, fun _ => rfl⟩

/-- Settles O17: the state of `pushed` with a register, the raise with an index above 7. -/
theorem pushResult : Obligations.PushResult := by
  intro a s
  refine ⟨fun i ha => ?_, fun above => withRegister_above above s _⟩
  rw [eq_regByte ha, exec_push_regByte, pushed_eq]

/-- Settles O18: the state of `popped` with a register, where POP R7 writes the stack pointer twice; the raise with an index
above 7. -/
theorem popResult : Obligations.PopResult := by
  intro a s
  refine ⟨fun i ha hi => ?_, fun ha => ?_, fun above => withRegister_above above s _⟩
  · rw [eq_regByte ha, exec_pop_regByte, popped_eq, if_neg hi.symm]
  · rw [eq_regByte (i := 7) ha, exec_pop_regByte, popped_eq, if_pos rfl]
    simp [Vector.set_set]

end Sys2Proof.Machine
end


section
/-! PROOFS of the family 44_jumps.md: what a jump answers, what it leaves alone, and the loop of a JMP to itself. -/

namespace Sys2Proof.Machine

/-! ### A jump by its operand byte -/

/-- A taken jump whose operand byte is a register's number goes to the register's value (R81, R96). -/
theorem jumpWhen_true_of_toNat {a : Byte} {i : Fin 8} (ha : a.toNat = i.val) (s : State) :
    jumpWhen true a s = .next { s with pc := BitVec.ofNat 9 (s.reg i).toNat } := by
  rw [eq_regByte ha, jumpWhen_true_regByte]

/-- A taken jump with an index above 7 latches OutOfBoundsAccess and keeps the advanced `pc` (R23, R141). -/
theorem jumpWhen_true_above {a : Byte} (h : 7 < a.toNat) (s : State) :
    jumpWhen true a s = .next { s with fault := some .outOfBoundsAccess } :=
  withRegister_above h s _

/-- JMP always jumps (R141). -/
theorem exec_jmp (a : Byte) (s : State) : exec (.jmp a) s = jumpWhen true a s := rfl

/-- JEQ with the value of E known (R142). -/
theorem exec_jeq_of_flag {s : State} {e : Bool} (he : s.fl.getLsbD 0 = e) (a : Byte) :
    exec (.jeq a) s = jumpWhen e a s :=
  congrArg (jumpWhen · a s) he

/-- JNE with the value of E known (R143). -/
theorem exec_jne_of_flag {s : State} {e : Bool} (he : s.fl.getLsbD 0 = e) (a : Byte) :
    exec (.jne a) s = jumpWhen (!e) a s :=
  congrArg (fun v => jumpWhen (!v) a s) he

/-! ### A JMP to its own address -/

/-- A step at a JMP on a register goes to the register's value, and the rest of the advance is overwritten (R96, R141). -/
theorem step_at_jmp {s : State} {i : Fin 8} (en : s.enabled = true) (hpc : s.pc.toNat ≤ 253)
    (hop : s.mem.read s.pc.toNat = opJmp) (ha : s.mem.read (s.pc.toNat + 1) = regByte i) :
    step s = .next { s with pc := BitVec.ofNat 9 (s.reg i).toNat } := by
  have hd : decode ⟨opJmp, regByte i, s.mem.read (s.pc.toNat + 2)⟩ = .ok (.jmp (regByte i)) :=
    decode_of_operands (.jmp (regByte i)) rfl
  rw [step_eq_exec en hpc (by rw [hop, ha]; exact hd), exec_jmp, jumpWhen_true_regByte]
  rfl

/-- A state that steps to itself is where any number of steps ends. -/
theorem core_run_of_step_self {s : State} (h : step s = .next s) (n : Nat) : core.run n s = .next s := by
  induction n with
  | zero => rfl
  | succ n ih =>
    rw [core_run_succ, h]
    exact ih

/-- Settles O42: the jump restores `pc`, so one step answers the same state. -/
theorem jumpToItselfLoopsForEver : Obligations.JumpToItselfLoopsForEver := by
  intro s i hrun hfault hpc hop ha target
  apply core_run_of_step_self
  rw [step_at_jmp (s.enabled_iff.mpr ⟨hrun, hfault⟩) hpc hop ha, target, BitVec.ofNat_toNat, BitVec.setWidth_eq]

/-! ### The frame of the jumps -/

/-- JMP, JEQ and JNE change `pc` alone, or raise on an ill-formed operand (R145). -/
theorem exec_jump_next {a : Byte} {s t : State} {i : Instr} (hi : i ∈ [Instr.jmp a, Instr.jeq a, Instr.jne a])
    (h : exec i s = .next t) :
    t = { s with pc := t.pc } ∨ (t = s.latch .outOfBoundsAccess ∧ i.wellFormed = false) := by
  rcases exec_next h with eff | bad
  · simp only [List.mem_cons, List.not_mem_nil, or_false] at hi
    rcases hi with rfl | rfl | rfl <;> cases eff <;> exact .inl rfl
  · exact .inr bad

/-- Settles O25: a written `pc` and a raised fault each leave the rest alone. -/
theorem frameOfJumps : Obligations.FrameOfJumps := by
  intro a s t i hi h
  rcases exec_jump_next hi h with e | ⟨rfl, bad⟩
  · rw [e]
    exact ⟨fun _ => rfl, rfl, rfl, rfl, fun _ => rfl, fun _ => rfl⟩
  · exact ⟨fun _ => rfl, rfl, rfl, rfl, fun good => absurd (good.symm.trans bad) nofun, fun _ => rfl⟩

/-! ### What each jump answers -/

/-- Settles O19: always taken, so a register is the target and an index above 7 raises. -/
theorem jmpResult : Obligations.JmpResult := by
  intro a b s
  rw [exec_jmp]
  exact ⟨decode_of_operands (.jmp a) rfl, fun _ ha => jumpWhen_true_of_toNat ha s, fun above => jumpWhen_true_above above s⟩

/-- Settles O20: taken with E set, not taken with E clear. -/
theorem jeqResult : Obligations.JeqResult := by
  intro a s
  refine ⟨fun i set ha => ?_, fun set above => ?_, fun clear => ?_⟩
  · exact (exec_jeq_of_flag set a).trans (jumpWhen_true_of_toNat ha s)
  · exact (exec_jeq_of_flag set a).trans (jumpWhen_true_above above s)
  · exact (exec_jeq_of_flag clear a).trans (jumpWhen_false a s)

/-- Settles O21: taken with E clear, not taken with E set. -/
theorem jneResult : Obligations.JneResult := by
  intro a s
  refine ⟨fun i clear ha => ?_, fun clear above => ?_, fun set => ?_⟩
  · exact (exec_jne_of_flag clear a).trans (jumpWhen_true_of_toNat ha s)
  · exact (exec_jne_of_flag clear a).trans (jumpWhen_true_above above s)
  · exact (exec_jne_of_flag set a).trans (jumpWhen_false a s)

end Sys2Proof.Machine
end

section
/-! PROOFS of the family 60_exceptions.md, the facts: when the decoder rejects a byte, when an instruction accesses a register
above 7, and how a step raises. -/

namespace Sys2Proof

/-! ### The decoder's two rejections -/

/-- A byte is rejected as UnknownOpcode exactly when its bit 5 is clear and it has no handler (R151). -/
theorem decode_unknownOpcode_iff (f : Fetched) :
    decode f = .error .unknownOpcode ↔ aluBit f.ir = false ∧ f.ir ∉ handlerOpcodes := by
  refine ⟨fun h => ?_, fun ⟨bit, undefined⟩ => (decode_rejects f).2 bit undefined⟩
  rcases decode_error h with ⟨e, -⟩ | ⟨-, rejected⟩
  · cases e
  · exact rejected

/-- A byte is rejected as UnsupportedALUOperation exactly when its bit 5 is set and it is no ALU opcode (R152). -/
theorem decode_unsupportedALUOperation_iff (f : Fetched) :
    decode f = .error .unsupportedALUOperation ↔ aluBit f.ir = true ∧ f.ir ∉ aluOpcodes := by
  refine ⟨fun h => ?_, fun ⟨bit, undefined⟩ => (decode_rejects f).1 bit undefined⟩
  rcases decode_error h with ⟨-, rejected⟩ | ⟨e, -⟩
  · exact rejected
  · cases e

/-! ### Accesses to a register above 7 -/

/-- An operand byte passes the well-formedness check exactly when it is at most 7 (R79). -/
theorem namesRegister_eq_decide (a : Byte) : namesRegister a = decide (a.toNat ≤ 7) :=
  decide_eq_decide.mpr Nat.lt_succ_iff

/-- The instruction accesses a register whose index is above 7, with this flags byte: the operand of a conditional jump counts
only when the jump is taken (R23, R153; decision D4). -/
def Instr.AccessesAbove7 (fl : Byte) : Instr → Prop
  | .hlt => False
  | .ldi a _ | .prn a | .push a | .pop a | .jmp a => 7 < a.toNat
  | .add a b | .mul a b | .cmp a b => 7 < a.toNat ∨ 7 < b.toNat
  | .jeq a => 7 < a.toNat ∧ Machine.equalFlag fl = true
  | .jne a => 7 < a.toNat ∧ Machine.equalFlag fl = false

/-- The same read off the fetched bytes. -/
def Fetched.AccessesAbove7 (fl : Byte) (f : Fetched) : Prop :=
  (f.ir ∈ aluOpcodes ∧ (7 < f.a.toNat ∨ 7 < f.b.toNat)) ∨
    (7 < f.a.toNat ∧ (f.ir ∈ [opLdi, opPrn, opPush, opPop, opJmp] ∨
      (f.ir = opJeq ∧ Machine.equalFlag fl = true) ∨ (f.ir = opJne ∧ Machine.equalFlag fl = false)))

/-- The bytes tell of an access above 7 exactly when they decode to an instruction that makes one. -/
theorem Fetched.accessesAbove7_iff (fl : Byte) (f : Fetched) :
    f.AccessesAbove7 fl ↔ ∃ i, decode f = .ok i ∧ i.AccessesAbove7 fl := by
  obtain ⟨ir, a, b⟩ := f
  constructor
  · simp only [Fetched.AccessesAbove7, aluOpcodes, List.mem_cons, List.not_mem_nil, or_false]
    rintro (⟨rfl | rfl | rfl, above⟩ | ⟨above, (rfl | rfl | rfl | rfl | rfl) | ⟨rfl, e⟩ | ⟨rfl, e⟩⟩)
    · exact ⟨.add a b, decode_of_operands (.add a b) rfl, above⟩
    · exact ⟨.mul a b, decode_of_operands (.mul a b) rfl, above⟩
    · exact ⟨.cmp a b, decode_of_operands (.cmp a b) rfl, above⟩
    · exact ⟨.ldi a b, decode_of_operands (.ldi a b) rfl, above⟩
    · exact ⟨.prn a, decode_of_operands (.prn a) rfl, above⟩
    · exact ⟨.push a, decode_of_operands (.push a) rfl, above⟩
    · exact ⟨.pop a, decode_of_operands (.pop a) rfl, above⟩
    · exact ⟨.jmp a, decode_of_operands (.jmp a) rfl, above⟩
    · exact ⟨.jeq a, decode_of_operands (.jeq a) rfl, above, e⟩
    · exact ⟨.jne a, decode_of_operands (.jne a) rfl, above, e⟩
  · rintro ⟨i, hd, access⟩
    obtain ⟨rfl, ops⟩ := decode_ok hd
    cases i <;> simp_all [Fetched.AccessesAbove7, Instr.AccessesAbove7, Instr.opcode, Instr.operands, aluOpcodes]

end Sys2Proof

namespace Sys2Proof.Machine

/-- An instruction that has its effect accessed no register above 7. -/
theorem Effect.not_accessesAbove7 {s t : State} {i : Instr} (h : Effect s i t) : ¬ i.AccessesAbove7 s.fl := by
  have inside (r : Fin 8) : ¬ 7 < (regByte r).toNat := by
    rw [regByte_toNat]
    omega
  cases h <;> simp_all [Instr.AccessesAbove7]

/-- An ill-formed instruction that accesses no register above 7 is a jump not taken (R142, R143). -/
theorem exec_illFormed_of_not_accessesAbove7 {s : State} {i : Instr} (bad : i.wellFormed = false)
    (legal : ¬ i.AccessesAbove7 s.fl) : exec i s = .next s := by
  cases i with
  | hlt => cases bad
  | jeq a =>
    have free : equalFlag s.fl = false := by simp_all [Instr.wellFormed, Instr.AccessesAbove7, namesRegister_eq_decide]
    rw [exec_jeq, free, jumpWhen_false]
  | jne a =>
    have free : equalFlag s.fl = true := by simp_all [Instr.wellFormed, Instr.AccessesAbove7, namesRegister_eq_decide]
    rw [exec_jne, free, Bool.not_true, jumpWhen_false]
  | _ =>
    simp [Instr.wellFormed, Instr.AccessesAbove7, namesRegister_eq_decide] at bad legal
    omega

/-- Everything an instruction can do to the latch of a state without a fault: it raises exactly when it accesses a register above
7, and then only the latch changes (R153, R158). -/
theorem exec_fault_cases {i : Instr} {s t : State} (nofault : s.fault = none) (h : exec i s = .next t) :
    (i.AccessesAbove7 s.fl ∧ t = s.latch .outOfBoundsAccess) ∨ (¬ i.AccessesAbove7 s.fl ∧ t.fault = none) := by
  rcases exec_next h with eff | ⟨e, bad⟩
  · exact .inr ⟨eff.not_accessesAbove7, eff.fault_eq.trans nofault⟩
  · by_cases access : i.AccessesAbove7 s.fl
    · exact .inl ⟨access, e⟩
    · obtain rfl := Host.Outcome.next.inj ((exec_illFormed_of_not_accessesAbove7 bad access).symm.trans h)
      exact .inr ⟨access, nofault⟩

/-- Everything an enabled step that has fetched can do to the latch, in the order of R157: the opcode, then the register
indices. -/
theorem step_fault_cases {s t : State} {f : Fetched} (en : s.enabled = true) (hf : fetch s = some f) (h : step s = .next t) :
    (∃ e, decode f = .error e ∧ t = (s.advance f.ir).latch (decodeFault e)) ∨
      (∃ i, decode f = .ok i ∧ i.AccessesAbove7 s.fl ∧ t = (s.advance f.ir).latch .outOfBoundsAccess) ∨
      (∃ i, decode f = .ok i ∧ ¬ i.AccessesAbove7 s.fl ∧ t.fault = none) := by
  obtain ⟨hpc, rfl⟩ := fetch_some hf
  cases hd : decode _ with
  | error e => exact .inl ⟨e, rfl, Host.Outcome.next.inj (h.symm.trans (step_decode_fault en hpc hd))⟩
  | ok i =>
    rw [step_eq_exec en hpc hd] at h
    rcases exec_fault_cases (s := s.advance _) (s.enabled_iff.mp en).2 h with ⟨access, e⟩ | ⟨legal, e⟩
    · exact .inr (.inl ⟨i, rfl, access, e⟩)
    · exact .inr (.inr ⟨i, rfl, legal, e⟩)

/-- The kind an enabled step that has fetched raises is read off the fetched bytes and FL (R150, R157). -/
theorem step_fault_iff {s t : State} {f : Fetched} (en : s.enabled = true) (hf : fetch s = some f) (h : step s = .next t) :
    (t.fault = some .unknownOpcode ↔ decode f = .error .unknownOpcode) ∧
      (t.fault = some .unsupportedALUOperation ↔ decode f = .error .unsupportedALUOperation) ∧
      (t.fault = some .outOfBoundsAccess ↔ f.AccessesAbove7 s.fl) := by
  rw [Fetched.accessesAbove7_iff]
  rcases step_fault_cases en hf h with ⟨e, hd, rfl⟩ | ⟨i, hd, access, rfl⟩ | ⟨i, hd, legal, nofault⟩
  · cases e <;> simp [hd, decodeFault]
  · simp [hd, access]
  · simp [hd, legal, nofault]

/-- An enabled step at an undefined opcode advances `pc` and latches the byte's kind, nothing else (R151, R152, R158). -/
theorem step_undefined {s : State} {e : DecodeError} (en : s.enabled = true) (hpc : s.pc.toNat ≤ 253)
    (hd : decode ⟨s.mem.read s.pc.toNat, s.mem.read (s.pc.toNat + 1), s.mem.read (s.pc.toNat + 2)⟩ = .error e) :
    step s = .next { s with pc := BitVec.ofNat 9 (s.pc.toNat + 1 + (s.mem.read s.pc.toNat).toNat / 64)
                            fault := some (decodeFault e) } := by
  rw [step_decode_fault en hpc hd, advance_eq]
  rfl

/-- A count over the 256 byte values, the lower and the upper half apart: `decide` evaluates each within its recursion depth. -/
theorem countP_range_256 (p : Nat → Bool) :
    (List.range 256).countP p = (List.range 128).countP p + (List.range 128).countP (fun n => p (128 + n)) := by
  rw [show 256 = 128 + 128 from rfl, List.range_add, List.countP_append, List.countP_map]
  rfl

end Sys2Proof.Machine
end

section
/-! PROOFS of the family 60_exceptions.md, the statements. -/

namespace Sys2Proof.Machine

/-- Settles O9: the decoder rejects the byte; the byte values are counted. -/
theorem undefinedHandlerByteRaisesUnknownOpcode : Obligations.UndefinedHandlerByteRaisesUnknownOpcode := by
  refine ⟨fun s hrun hfault hpc bit undefined => ?_, ?_⟩
  · exact step_undefined (s.enabled_iff.mpr ⟨hrun, hfault⟩) hpc ((decode_unknownOpcode_iff _).mpr ⟨bit, undefined⟩)
  · rw [countP_range_256]
    decide

/-- Settles O10: the ALU rejects the byte; the byte values are counted. -/
theorem undefinedAluByteRaisesUnsupported : Obligations.UndefinedAluByteRaisesUnsupported := by
  refine ⟨fun s hrun hfault hpc bit undefined => ?_, ?_⟩
  · exact step_undefined (s.enabled_iff.mpr ⟨hrun, hfault⟩) hpc
      ((decode_unsupportedALUOperation_iff _).mpr ⟨bit, undefined⟩)
  · rw [countP_range_256]
    decide

/-- Settles O32: a fetch fault latches in the old state, an undefined opcode and a bad index in the advanced one. -/
theorem faultChangesOnlyPcAndLatch : Obligations.FaultChangesOnlyPcAndLatch := by
  intro s t k hrun hfault h raised
  have en : s.enabled = true := s.enabled_iff.mpr ⟨hrun, hfault⟩
  rcases Nat.lt_or_ge 253 s.pc.toNat with above | inside
  · obtain rfl := Host.Outcome.next.inj ((step_fetch_fault en above).symm.trans h)
    cases raised
    exact ⟨rfl, fun _ => rfl, fun le => absurd above le.not_gt⟩
  · have latched : t = (s.advance (s.mem.read s.pc.toNat)).latch k := by
      rcases step_fault_cases en (fetch_inside inside) h with ⟨e, -, rfl⟩ | ⟨i, -, -, rfl⟩ | ⟨-, -, -, nofault⟩
      · cases raised
        rfl
      · cases raised
        rfl
      · cases nofault.symm.trans raised
    rw [latched, ← operandCount_eq]
    exact ⟨rfl, fun above => absurd above inside.not_gt, fun _ => advance_pc_toNat inside _⟩

/-- Settles O33: above the fetch bound there is one kind, inside it the fetched bytes and FL decide. -/
theorem eachFaultKindExactlyWhen : Obligations.EachFaultKindExactlyWhen := by
  intro s t hrun hfault h
  have en : s.enabled = true := s.enabled_iff.mpr ⟨hrun, hfault⟩
  rcases Nat.lt_or_ge 253 s.pc.toNat with above | inside
  · obtain rfl := Host.Outcome.next.inj ((step_fetch_fault en above).symm.trans h)
    exact ⟨⟨nofun, fun ⟨le, _⟩ => absurd above le.not_gt⟩, ⟨nofun, fun ⟨le, _⟩ => absurd above le.not_gt⟩,
      ⟨fun _ => .inl above, fun _ => rfl⟩⟩
  · obtain ⟨unknown, unsupported, outOfBounds⟩ := step_fault_iff en (fetch_inside inside) h
    rw [decode_unknownOpcode_iff] at unknown
    rw [decode_unsupportedALUOperation_iff] at unsupported
    exact ⟨unknown.trans (and_iff_right inside).symm, unsupported.trans (and_iff_right inside).symm,
      outOfBounds.trans (or_iff_right inside.not_gt).symm⟩

/-- Settles O34: a raise needs an ill-formed operand, and an effect leaves the latch alone. -/
theorem legalOperandsNeverFault : Obligations.LegalOperandsNeverFault := by
  intro i s good
  rcases exec_cases i s with ⟨t, e, eff⟩ | ⟨-, bad⟩
  · exact ⟨t, e, eff.fault_eq⟩
  · cases good.symm.trans bad

end Sys2Proof.Machine
end

section
/-! PROOFS of the family 70_reset_and_hazards.md: what the loader leaves in memory past the program, and what reset with a program
answers. -/

namespace Sys2Proof.Machine

/-- Bytes stored from an address on leave every byte past the last of them. -/
theorem installFrom_read_above (bytes : List Byte) (s : State) {addr a : Nat} (le : addr + bytes.length ≤ a) :
    (installFrom addr bytes s).mem.read a = s.mem.read a := by
  induction bytes generalizing addr s with
  | nil => rfl
  | cons v rest ih =>
    rw [List.length_cons] at le
    rw [installFrom, ih _ (by omega), State.read_poke_other s v (by omega)]

/-- A program that fits in memory starts from the reset state with its bytes stored from address 0 on (R180, R182). -/
theorem resetWith_of_fits {program : List Byte} (fits : program.length ≤ 256) :
    resetWith program = .next (installFrom 0 program State.reset) := if_pos fits

/-- A program longer than memory is the loader's error (R154, R183; decision D11). -/
theorem resetWith_of_too_long {program : List Byte} (long : 256 < program.length) :
    resetWith program = .refused .loaderError := if_neg long.not_ge

/-- Settles O48: the loader stores the program over reset's empty memory and changes memory alone. -/
theorem programIsInstalledFromZero : Obligations.ProgramIsInstalledFromZero := by
  intro program fits
  refine ⟨_, resetWith_of_fits fits, fun k hk => ?_, fun k past => ?_, installFrom_changes_only_mem 0 program State.reset,
    Memory.wf_installFrom program Memory.wf_reset⟩
  · have read := installFrom_read (addr := 0) Memory.wf_reset (by rwa [Nat.zero_add]) hk
    rwa [Nat.zero_add] at read
  · exact installFrom_read_above program State.reset (by rwa [Nat.zero_add])

/-- Settles O49: the loader's error is the only answer for such a program. -/
theorem tooLongProgramHasNoRun : Obligations.TooLongProgramHasNoRun :=
  fun _ long => resetWith_of_too_long long

end Sys2Proof.Machine
end
